-- ==== Sys2Proof/Word.lean ====
section
/-! DEFINITION. The word types of the block: the command word (R71), its two bytes, a sample (R75), a frequency
register (R24) and the bit pattern of a binary64 number (R9, R73). -/

namespace Sys2Proof

/-- The 16-bit parallel word of the command port (R71); also the width of a frequency register and of a capacity (R7, D13). -/
abbrev Word := BitVec 16

/-- One byte: the `op` and the `arg` of a command word (R71), a response code (R72), a byte of a serialised sample (R52). -/
abbrev Byte := BitVec 8

/-- One sample: 16 bits, two's complement, linear PCM (R75). -/
abbrev Sample := BitVec 16

/-- The carrier `NUM.R` of the instantiation `F64` (R9): an IEEE 754 binary64 number, held as its 64-bit pattern (R73). -/
abbrev F64 := BitVec 64

/-- `w[15:8]` (R11, R71). -/
def Word.op (w : Word) : Byte := w.extractLsb' 8 8

/-- `w[7:0]` (R11, R71). -/
def Word.arg (w : Word) : Byte := w.extractLsb' 0 8

end Sys2Proof
end

