-- ==== Sys2Proof/Config.lean ====
section
/-! DEFINITION. What is fixed for one instance of the block and what the spec leaves open: the parameters (R7, R33), the
numerics record `NUM` (R8), the shapes of the inputs the environment gives (R74, R130, R150), and the free values, which
are constants without a body. -/

namespace Sys2Proof

/-! ## Constants that no instance changes (R7) -/

/-- `FS`, the sample rate in Hz: 8000, "fixed configuration" (R7). -/
def fs : Nat := 8000

/-- `CAP_MAX`, the largest capacity the sink may report (R7, D13). -/
def capMax : Nat := 65535

/-! ## Parameters (R7, R33) -/

/-- `OVF`: what an out-of-range summed sample becomes (R7, R115). -/
inductive Ovf where
  /-- keep the low 16 bits; the default -/
  | wrap
  /-- clamp to −32768..32767 -/
  | sat
  deriving DecidableEq, Repr

/-- The parameters of one instance, constant from reset on (R7, R33, R189). `NUM` and the two tables stand elsewhere. -/
structure Params where
  /-- `VOLUME`, the integer amplitude scale of each oscillator; legal values 0..32767, no default (R7, D12). -/
  volume : Nat
  /-- `THRESHOLD`, the minimum chunk in samples; legal values 1..`CAP_MAX`, default 96 (R7, D29). -/
  threshold : Nat
  /-- `OVF`, default `WRAP` (R7, D8). -/
  ovf : Ovf
  deriving DecidableEq, Repr

/-! ## The numerics record (R8) -/

/-- The record `NUM` over a carrier `R` (R8). Each field is a total function of its operands alone; every rule that
computes with real numbers goes through these fields and through nothing else. -/
structure Num (R : Type) where
  ofInt : Int → R
  add : R → R → R
  sub : R → R → R
  mul : R → R → R
  div : R → R → R
  sin : R → R
  cos : R → R
  sqrt : R → R
  twoPi : R
  lt : R → R → Bool
  round : R → Int

variable {R : Type}

/-- `NUM.zero = NUM.ofInt 0` (R8). -/
def Num.zero (N : Num R) : R := N.ofInt 0

/-- `a ≥ b` in the pseudocode. The record has the one comparison `lt` (R8), so `≥` is its negation (DEDUCED, log 5). -/
def Num.ge (N : Num R) (a b : R) : Bool := !N.lt a b

/-- `x` lies in `[0, 2π)` by the record's own comparison (R22). -/
def Num.inTurn (N : Num R) (x : R) : Bool := N.ge x N.zero && N.lt x N.twoPi

/-! ## Inputs from outside (R57, R74, R130, R150) -/

/-- The sink's answer to `QCAP` (R56, R74): `Ok(n)`, `n` an unsigned 16-bit count of samples, or `Fail`. -/
inductive CapAnswer where
  | ok (n : Word)
  | fail
  deriving DecidableEq, Repr

/-- The sink's answer to `SINKWR` (R58, R74). -/
inductive WrAnswer where
  | ok
  | fail
  deriving DecidableEq, Repr

/-- Which agent acts next (R130): a command source, whose word is taken from the command port; the controller; or reset. -/
inductive Input where
  /-- the command word `w` is taken from the port -/
  | command (w : Word)
  /-- the controller takes the step that is enabled, if one is -/
  | controller
  /-- reset, between two steps (R185) -/
  | reset
  deriving DecidableEq, Repr, Inhabited

/-! ## Free values: constants without a body -/

/-- `sin` of `F64`, "left open within the named property NUM-TRIG" (R9, U2): one function per instance. -/
opaque Config.sin : F64 → F64

/-- `cos` of `F64`, open in the same way (R9, U2). -/
opaque Config.cos : F64 → F64

/-- The sign and payload of the NaN that operation number `n` gives on these operands: IEEE 754 leaves both open (log 4). -/
opaque Config.nanBits (n : Nat) : F64 → F64 → F64

/-- `round` of an infinity or a NaN: no rule states it (log 4). -/
opaque Config.roundNonFinite : F64 → Int

/-- The sink oracle's answer to the `n`-th capacity query, as the 17-bit word of format Q (R57, R74, U7). -/
opaque Config.sinkCapWord (n : Nat) : BitVec 17

/-- The sink oracle's answer to the `n`-th write, as the bit of format W (R57, R74, U7). -/
opaque Config.sinkWrBit (n : Nat) : BitVec 1

/-- The `n`-th choice of the environment: which agent acts next, with which command word (R130, R150, U10). -/
opaque Config.input (n : Nat) : Input

end Sys2Proof
end

