-- ==== Sys2Proof/Machine/F64.lean ====
section
/-! DEFINITION. IEEE 754 binary64 on bit patterns: the instantiation `F64` of the numerics record (R9). Every finite
operation forms its exact result as a fraction of natural numbers and rounds it once, to nearest, ties to even. -/

namespace Sys2Proof.Machine

/-! ## Fields of a pattern -/

/-- The sign bit: true for a negative number, `-0` among them. -/
def F64.neg (x : F64) : Bool := decide (2 ^ 63 ≤ x.toNat)

/-- The pattern without its sign. -/
def F64.mag (x : F64) : Nat := x.toNat % 2 ^ 63

/-- The biased exponent. -/
def F64.expField (x : F64) : Nat := F64.mag x / 2 ^ 52

/-- The fraction field. -/
def F64.frac (x : F64) : Nat := x.toNat % 2 ^ 52

/-- Neither an infinity nor a NaN. -/
def F64.finite (x : F64) : Bool := decide (F64.mag x < 2047 * 2 ^ 52)

/-- An infinity. -/
def F64.isInf (x : F64) : Bool := F64.mag x == 2047 * 2 ^ 52

/-- Not a number. -/
def F64.isNaN (x : F64) : Bool := decide (2047 * 2 ^ 52 < F64.mag x)

/-- `+0` or `-0`. -/
def F64.isZero (x : F64) : Bool := F64.mag x == 0

/-- The significand `m` of a finite number `±m·2^e`. -/
def F64.mant (x : F64) : Nat := if F64.expField x = 0 then F64.frac x else F64.frac x + 2 ^ 52

/-- The exponent `e` of a finite number `±m·2^e`. -/
def F64.expo (x : F64) : Int := (max 1 (F64.expField x) : Nat) - 1075

/-- The pattern with sign `s` and magnitude `m`. -/
def F64.ofBits (s : Bool) (m : Nat) : F64 := BitVec.ofNat 64 ((if s then 2 ^ 63 else 0) + m)

/-- The infinity with sign `s`. -/
def F64.inf (s : Bool) : F64 := F64.ofBits s (2047 * 2 ^ 52)

/-- A NaN as operation number `n` gives it: quiet, its sign and payload free (log 4). -/
def F64.nan (n : Nat) (a b : F64) : F64 :=
  (Config.nanBits n a b &&& 0x8007FFFFFFFFFFFF#64) ||| 0x7FF8000000000000#64

/-! ## Rounding -/

/-- The exponent to which the positive fraction `n/d` is rounded: the `e` with `2^52 ≤ (n/d)/2^e < 2^53`, but no less than
that of the subnormals, −1074. -/
def F64.roundExp (n d : Nat) : Int :=
  let e0 : Int := (Nat.log2 n : Int) - (Nat.log2 d : Int) - 52
  let e := if n * 2 ^ (-e0).toNat < d * 2 ^ 52 * 2 ^ e0.toNat then e0 - 1 else e0
  max e (-1074)

/-- `n/d` rounded to the nearest natural number, ties to even. -/
def F64.nearestEven (n d : Nat) : Nat :=
  let q := n / d
  let r := n % d
  if d < 2 * r ∨ (2 * r = d ∧ q % 2 = 1) then q + 1 else q

/-- The binary64 number nearest to `±n/d`, ties to even (R9). With the significand `m` at exponent `e ≥ −1074` the
pattern is `(e + 1074)·2^52 + m`, for normal and subnormal numbers and across the carry of `m = 2^53` alike; a magnitude
past the largest finite number is an infinity. -/
def F64.roundFrac (s : Bool) (n d : Nat) : F64 :=
  if n = 0 then F64.ofBits s 0
  else
    let e := F64.roundExp n d
    let m := F64.nearestEven (n * 2 ^ (-e).toNat) (d * 2 ^ e.toNat)
    let b := (e + 1074).toNat * 2 ^ 52 + m
    if b < 2047 * 2 ^ 52 then F64.ofBits s b else F64.inf s

/-! ## The operations (R9) -/

/-- The finite number `x` as a multiple of `2^e`, for an `e` no greater than its own exponent. -/
def F64.scaled (x : F64) (e : Int) : Int :=
  let m : Int := F64.mant x * 2 ^ (F64.expo x - e).toNat
  if F64.neg x then -m else m

/-- The sum of two finite numbers, rounded; an exact zero is `+0` unless both operands are negative. -/
def F64.addFinite (a b : F64) : F64 :=
  let e := min (F64.expo a) (F64.expo b)
  let t := F64.scaled a e + F64.scaled b e
  if t = 0 then F64.ofBits (F64.neg a && F64.neg b) 0
  else F64.roundFrac (decide (t < 0)) (t.natAbs * 2 ^ e.toNat) (2 ^ (-e).toNat)

/-- Addition (R9). -/
def F64.add (a b : F64) : F64 :=
  if F64.isNaN a || F64.isNaN b then F64.nan 0 a b
  else if F64.isInf a then
    if F64.isInf b && (F64.neg a != F64.neg b) then F64.nan 0 a b else a
  else if F64.isInf b then b
  else F64.addFinite a b

/-- The same number with the other sign. -/
def F64.negate (x : F64) : F64 := x ^^^ 0x8000000000000000#64

/-- Subtraction (R9): `a + (−b)`, but for the NaN it gives. -/
def F64.sub (a b : F64) : F64 :=
  if F64.isNaN a || F64.isNaN b then F64.nan 1 a b
  else if F64.isInf a then
    if F64.isInf b && (F64.neg a == F64.neg b) then F64.nan 1 a b else a
  else if F64.isInf b then F64.negate b
  else F64.addFinite a (F64.negate b)

/-- Multiplication (R9). -/
def F64.mul (a b : F64) : F64 :=
  let s := F64.neg a != F64.neg b
  if F64.isNaN a || F64.isNaN b then F64.nan 2 a b
  else if F64.isInf a || F64.isInf b then
    if F64.isZero a || F64.isZero b then F64.nan 2 a b else F64.inf s
  else
    let e := F64.expo a + F64.expo b
    F64.roundFrac s (F64.mant a * F64.mant b * 2 ^ e.toNat) (2 ^ (-e).toNat)

/-- Division (R9). -/
def F64.div (a b : F64) : F64 :=
  let s := F64.neg a != F64.neg b
  if F64.isNaN a || F64.isNaN b then F64.nan 3 a b
  else if F64.isInf a then
    if F64.isInf b then F64.nan 3 a b else F64.inf s
  else if F64.isInf b then F64.ofBits s 0
  else if F64.isZero b then
    if F64.isZero a then F64.nan 3 a b else F64.inf s
  else
    let e := F64.expo a - F64.expo b
    F64.roundFrac s (F64.mant a * 2 ^ e.toNat) (F64.mant b * 2 ^ (-e).toNat)

/-- The integer square root of `n`, bit by bit from bit `k − 1` down, on top of `r`. -/
def F64.isqrt (n : Nat) : Nat → Nat → Nat
  | 0, r => r
  | k + 1, r => F64.isqrt n k (if (r + 2 ^ k) * (r + 2 ^ k) ≤ n then r + 2 ^ k else r)

/-- The square root of a positive finite number, `n·2^(2h)` with `2^104 ≤ n < 2^106`: its significand is the natural number
nearest to `√n`, which is `r + 1` just where `√n` lies above `r + 1/2`, that is where `n > r² + r`. It is never a tie, never
subnormal and never past the largest finite number. -/
def F64.sqrtPos (x : F64) : F64 :=
  let k0 := 104 - Nat.log2 (F64.mant x)
  let k := k0 + ((F64.expo x - k0) % 2).toNat
  let n := F64.mant x * 2 ^ k
  let r := F64.isqrt n 53 0
  let m := if r * r + r < n then r + 1 else r
  F64.ofBits false (((F64.expo x - k) / 2 + 1074).toNat * 2 ^ 52 + m)

/-- Square root (R9). -/
def F64.sqrt (x : F64) : F64 :=
  if F64.isNaN x then F64.nan 4 x x
  else if F64.isZero x then x
  else if F64.neg x then F64.nan 4 x x
  else if F64.isInf x then x
  else F64.sqrtPos x

/-- `ofInt` (R9): the nearest number; exact for `|n| < 2^53`. -/
def F64.ofInt (n : Int) : F64 := F64.roundFrac (decide (n < 0)) n.natAbs 1

/-- A number's place in the order of the finite numbers and infinities; both zeros are at 0. -/
def F64.key (x : F64) : Int := if F64.neg x then -(F64.mag x : Int) else F64.mag x

/-- The IEEE ordered comparison (R9): false where an operand is a NaN. -/
def F64.lt (a b : F64) : Bool :=
  !F64.isNaN a && !F64.isNaN b && decide (F64.key a < F64.key b)

/-- `round` (R9): to the nearest integer, ties away from zero; of an infinity or a NaN a free value (log 4). -/
def F64.round (x : F64) : Int :=
  if F64.finite x then
    let k := (-F64.expo x).toNat
    let m := (2 * (F64.mant x * 2 ^ (F64.expo x).toNat) + 2 ^ k) / 2 ^ (k + 1)
    if F64.neg x then -(m : Int) else m
  else Config.roundNonFinite x

/-- `twoPi` (R9): the binary64 number nearest 2π. -/
def F64.twoPi : F64 := 0x401921FB54442D18#64

/-- The trigonometric functions of an instance (R9, U2). -/
structure Trig where
  sin : F64 → F64
  cos : F64 → F64

/-- The instantiation `F64` with these trigonometric functions (R9). -/
def F64.num (t : Trig) : Num F64 :=
  { ofInt := F64.ofInt, add := F64.add, sub := F64.sub, mul := F64.mul, div := F64.div,
    sin := t.sin, cos := t.cos, sqrt := F64.sqrt, twoPi := F64.twoPi, lt := F64.lt, round := F64.round }

/-- The machine's own trigonometric functions: the free values of Config. -/
def machineTrig : Trig := { sin := Config.sin, cos := Config.cos }

/-- The machine's own record: the instantiation `F64`, the default of `NUM` (R7, log 9). -/
def machineNum : Num F64 := F64.num machineTrig

end Sys2Proof.Machine
end

