-- ==== Sys2Proof/Syntax.lean ====
section
/-! DEFINITION. The syntax of the command port: the seven commands (R70, R77) and the two pseudo-instructions (R84). -/

namespace Sys2Proof

/-- A command of the command port: one constructor per row of spec/opcode_table.json (R70, R77). -/
inductive Instr where
  /-- `PLAY` (R133) -/
  | play
  /-- `STOP` (R134) -/
  | stop
  /-- `TOGGLE` (R135) -/
  | toggle
  /-- `SELECT g` (R136); `g` is any 8-bit glyph code, legal or not (R78, R80) -/
  | select (g : Byte)
  /-- `TICK` (R137) -/
  | tick
  /-- `NOTIFY` (R138) -/
  | notify
  /-- `POLL` (R139) -/
  | poll
  deriving DecidableEq, Repr

/-- The pseudo-instructions of the script notation (R84). -/
inductive Pseudo where
  /-- `PRESS g` -/
  | press (g : Byte)
  /-- `RELEASE` -/
  | release
  deriving DecidableEq, Repr

/-- What a pseudo-instruction expands to (R84); that `PRESS` stops after a refused `SELECT` is in `Machine.issue`. -/
def Pseudo.expand : Pseudo → List Instr
  | .press g => [.select g, .play]
  | .release => [.stop]

end Sys2Proof
end

