-- ==== Sys2Proof/WellFormed.lean ====
section
/-! DEFINITION. Well-formed commands and legal parameter settings. -/

namespace Sys2Proof

/-- Every command is well formed: only `SELECT` has an operand, and every 8-bit operand is a legal word of the port
(R80: "whatever `arg` is"); that 240 of them are no symbol is found when the command runs (R136). -/
def Instr.wf : Instr → Bool
  | .play => true
  | .stop => true
  | .toggle => true
  | .select _ => true
  | .tick => true
  | .notify => true
  | .poll => true

/-- The legal parameter settings (R33): `VOLUME` in 0..32767, `THRESHOLD` in 1..`CAP_MAX`. -/
def Params.wf (p : Params) : Bool :=
  decide (p.volume ≤ 32767) && decide (1 ≤ p.threshold) && decide (p.threshold ≤ capMax)

end Sys2Proof
end

