-- ==== Sys2Proof/Machine/State.lean ====
section
/-! DEFINITION. The state of one instance (R20), with the ports' other sides as plain data, the outcomes that stop the
model, and the state after reset (R41, R42). -/

namespace Sys2Proof.Machine

/-- `SEQ` (R27): `REST`, between two ticks; `HEAD`, inside a tick, at the head of the pull loop. -/
inductive Seq where
  | rest
  | head
  deriving DecidableEq, Repr

/-- The response codes of format R (R72). -/
inductive RespCode where
  | ok
  | invalidSymbol
  | sinkUnavailable
  | illegalCommand
  deriving DecidableEq, Repr

/-- A response (R72, R73): its code, and for `POLL` the eight levels in canonical order. -/
structure Response (R : Type) where
  code : RespCode
  levels : Option (Vector R 8)
  deriving DecidableEq, Repr

/-- The sink port with what lies behind it (R55 to R60). The answers are free inputs (R57): `capScript` and `wrScript`
hold the answers that are given next, and where a script is empty the answer is the oracle's free value at the count of
transactions so far. -/
structure SinkPort where
  /-- the sink stream (R50, R60): every sample accepted so far, oldest first -/
  stream : List Sample
  /-- the coming answers to `QCAP`, first one first -/
  capScript : List CapAnswer
  /-- the coming answers to `SINKWR`, first one first -/
  wrScript : List WrAnswer
  /-- how many capacity queries have been made -/
  capAsked : Nat
  /-- how many writes have been attempted -/
  wrAsked : Nat
  deriving DecidableEq, Repr

/-- The order in which the agents act (R130), which no rule fixes: `script` holds the coming inputs, and where it is
empty the input is the environment's free value at `drawn`. -/
structure Agents where
  script : List Input
  /-- how many inputs have been drawn from the free value -/
  drawn : Nat
  deriving DecidableEq, Repr

/-- The state of an instance whose numbers are of the carrier `R`, that of its record `NUM` (R7, R8); `State` alone is the
state over `F64`, the default. The first nine fields are the tuple of R20; the last four are the model's own (INVENTORY.md,
State). -/
structure State (R : Type := F64) where
  /-- `PH_LO`, the low phase accumulator, radians in [0, 2π) (R21, R22) -/
  phLo : R
  /-- `PH_HI`, the high phase accumulator (R21, R22) -/
  phHi : R
  /-- `F_LO`, the low target frequency in Hz, 0 = inactive (R24) -/
  fLo : Word
  /-- `F_HI`, the high target frequency in Hz, 0 = inactive (R24) -/
  fHi : Word
  /-- `PLAYING`: false is `Idle`, true is `Streaming` (R29) -/
  playing : Bool
  /-- `SEQ` (R27) -/
  seq : Seq
  /-- `TICK_REQ`, a tick asked for and not yet begun (R30) -/
  tickReq : Bool
  /-- `SINK_ERR`, sticky (R31) -/
  sinkErr : Bool
  /-- `L[0..7]`, the level vector (R35) -/
  levels : Vector R 8
  /-- the parameters, which no step changes (R7, R33) -/
  params : Params
  /-- the sink port (R55 to R60) -/
  sink : SinkPort
  /-- the order of the agents and the words waiting at the command port (R130) -/
  agents : Agents
  /-- the response the last step sent, if it sent one (R72) -/
  response : Option (Response R)
  deriving DecidableEq, Repr

/-- Why a step does not complete. -/
inductive Fault where
  /-- Raised by `CYCLE` when the loop of `wrap` (R113) never ends, as it would for a phase register far outside the
  `[0, 2π)` of its type (R20) or not a number: the pseudocode is stuck there. Safe: no state that meets the invariant
  of Safety.lean reaches it. -/
  | phaseWrapDiverges
  deriving DecidableEq, Repr

/-- What the model gives no meaning to. -/
inductive Refusal where
  /-- Raised by `exec` for a command without a meaning yet; no arm is one. Safe. -/
  | notModelled (mnemonic : String)
  /-- Raised by `CYCLE` when `DETECTALL` is given an empty block (R93, U3: `refuse`); only an illegal `THRESHOLD = 0`
  gets there. Safe. -/
  | emptyBlock
  deriving DecidableEq, Repr

/-- Eight zeros: the level vector when it is zeroed (R35, R42). -/
def zeroLevels {R : Type} (N : Num R) : Vector R 8 :=
  #v[N.zero, N.zero, N.zero, N.zero, N.zero, N.zero, N.zero, N.zero]

/-- The parameter setting at reset: `THRESHOLD` and `OVF` at their defaults (R7), `VOLUME` at the value every program of
95_test_vectors.md takes; the spec states none (DESIGN CHOICE, log 2). -/
def resetParams : Params := { volume := 10000, threshold := 96, ovf := .wrap }

/-- A new instance with the record `N` and the parameters `p`, after reset (R41, R42, R43): quiescent, `Idle`, both
oscillators inactive at phase zero, levels zero. Nothing is scripted for the sink or the agents, so their answers and order
are the free values. -/
def initial {R : Type} (N : Num R) (p : Params) : State R :=
  { phLo := N.zero, phHi := N.zero, fLo := 0, fHi := 0,
    playing := false, seq := .rest, tickReq := false, sinkErr := false,
    levels := zeroLevels N,
    params := p,
    sink := { stream := [], capScript := [], wrScript := [], capAsked := 0, wrAsked := 0 },
    agents := { script := [], drawn := 0 },
    response := none }

/-- The state after reset of the machine: the instance of the default record `F64`. -/
def State.reset : State := initial machineNum resetParams

end Sys2Proof.Machine
end

