-- ==== Sys2Proof/Machine/Flags.lean ====
section
/-! DEFINITION. The status output and what is read off the flags (R29 to R34, R140, R141, R149), and the truncation of a
summed sample, which leaves no flag (R32, R115). -/

namespace Sys2Proof.Machine

variable {R : Type}

/-- One bit of the status output. -/
def bitOf (b : Bool) : BitVec 1 := if b then 1#1 else 0#1

/-- `SEQ` as a bit: `REST` is 0, `HEAD` is 1 (R27). -/
def seqBit : Seq → BitVec 1
  | .rest => 0#1
  | .head => 1#1

/-- `STATUS[3:0] = {SINK_ERR, TICK_REQ, SEQ, PLAYING}`, a read-only view (R34, R76). -/
def status (s : State R) : BitVec 4 :=
  bitOf s.sinkErr ++ (bitOf s.tickReq ++ (seqBit s.seq ++ bitOf s.playing))

/-- `TBEGIN` is enabled (R140). -/
def tbeginEnabled (s : State R) : Bool := decide (s.seq = .rest) && s.tickReq

/-- `CYCLE` is enabled (R141). It does not depend on what the oracle would answer (R57). -/
def cycleEnabled (s : State R) : Bool := decide (s.seq = .head)

/-- Quiescent (R149): no controller step is enabled. -/
def quiescent (s : State R) : Bool := decide (s.seq = .rest) && !s.tickReq

/-- Both oscillators are inactive (R24, R147). -/
def bothInactive (s : State R) : Bool := decide (s.fLo = 0) && decide (s.fHi = 0)

/-- `wrap16(n) = sext_16(n mod 2^16)` as a 16-bit pattern (R11). -/
def wrap16 (n : Int) : Sample := BitVec.ofInt 16 n

/-- `sat16(n) = max(−32768, min(32767, n))` as a 16-bit pattern (R11). -/
def sat16 (n : Int) : Sample := BitVec.ofInt 16 (max (-32768) (min 32767 n))

/-- `trunc16(t)`, by the parameter `OVF` (R115). -/
def trunc16 (o : Ovf) (t : Int) : Sample :=
  match o with
  | .wrap => wrap16 t
  | .sat => sat16 t

end Sys2Proof.Machine
end

