-- ==== Sys2Proof/Machine/Operands.lean ====
section
/-! DEFINITION. Operand forms and port formats: the glyph operand of `SELECT` with its two read-only tables (R78, R36, R37),
the sink's answer words (R74), response codes (R72) and the bytes of a sample (R52, R75). -/

namespace Sys2Proof.Machine

/-! ## The two read-only tables -/

/-- `FREQ[0..7]` in canonical order: low group, then high group (R36); the result of `ALLFREQ` (R100). -/
def freqTable : Vector Word 8 := #v[697, 770, 852, 941, 1209, 1336, 1477, 1633]

/-- `ALLFREQ()` (R100). -/
def allFrequencies : Vector Word 8 := freqTable

/-- One row of `KEY`: a glyph code, its row `r` and its column `c` (R102). -/
structure KeyRow where
  glyph : Byte
  row : Fin 4
  col : Fin 4
  deriving DecidableEq, Repr

/-- `KEY`, the 16 entries of R102 in the order of its grid. All but the entry of `5` are the standard keypad, which the
spec marks as from general knowledge (G1); the glyph codes are those of R78 (G2). -/
def keyTable : List KeyRow :=
  [⟨0x31, 0, 0⟩, ⟨0x32, 0, 1⟩, ⟨0x33, 0, 2⟩, ⟨0x41, 0, 3⟩] ++
  [⟨0x34, 1, 0⟩, ⟨0x35, 1, 1⟩, ⟨0x36, 1, 2⟩, ⟨0x42, 1, 3⟩] ++
  [⟨0x37, 2, 0⟩, ⟨0x38, 2, 1⟩, ⟨0x39, 2, 2⟩, ⟨0x43, 2, 3⟩] ++
  [⟨0x2A, 3, 0⟩, ⟨0x30, 3, 1⟩, ⟨0x23, 3, 2⟩, ⟨0x44, 3, 3⟩]

/-- `KEY[g]`: the row and column of a glyph code; none where `g` is not one of the 16 codes (R78, R101). -/
def key (g : Byte) : Option (Fin 4 × Fin 4) :=
  match keyTable.find? (fun k => k.glyph == g) with
  | some k => some (k.row, k.col)
  | none => none

/-- `g` is one of the 16 glyph codes (R78). -/
def isGlyph (g : Byte) : Bool := (key g).isSome

/-- `FREQ[r]`, the low-group frequency of row `r` (R101). -/
def lowFreq (r : Fin 4) : Word := freqTable[r.val]'(by omega)

/-- `FREQ[4 + c]`, the high-group frequency of column `c` (R101). -/
def highFreq (c : Fin 4) : Word := freqTable[4 + c.val]'(by omega)

/-- `LOOKUP(g)` (R101): the pair of frequencies of a glyph; none where it raises `InvalidSymbol`. -/
def lookup (g : Byte) : Option (Word × Word) :=
  match key g with
  | some (r, c) => some (lowFreq r, highFreq c)
  | none => none

/-! ## Port formats -/

/-- Format Q, the 17-bit answer `{ok, n[15:0]}` to `QCAP` (R74). -/
def capAnswerOf (w : BitVec 17) : CapAnswer :=
  if w.getLsbD 16 then .ok (w.extractLsb' 0 16) else .fail

/-- Format W, the one-bit answer to `SINKWR` (R74). -/
def wrAnswerOf (w : BitVec 1) : WrAnswer := if w = 1#1 then .ok else .fail

/-- The 8-bit response code `RC` (R72). -/
def respByte : RespCode → Byte
  | .ok => 0x00
  | .invalidSymbol => 0x01
  | .sinkUnavailable => 0x02
  | .illegalCommand => 0x03

/-- A sample as bytes, `s[7:0]` first and `s[15:8]` second (R52, R75). -/
def sampleBytes (s : Sample) : List Byte := [s.extractLsb' 0 8, s.extractLsb' 8 8]

/-- The sink stream as bytes (R52, R60). -/
def streamBytes (xs : List Sample) : List Byte := xs.flatMap sampleBytes

end Sys2Proof.Machine
end

