-- ==== Sys2Proof/Machine/Ops.lean ====
section
/-! DEFINITION. The shared operations on the state: responding, switching play on and off, setting the frequencies, asking
for a tick, the two sink transactions, and taking an exception. The block has no return from an exception (R169). -/

namespace Sys2Proof.Machine

variable {R : Type}

/-! ## Responses -/

/-- `respond(code)` (R12, R72). -/
def respond (c : RespCode) (s : State R) : State R :=
  { s with response := some { code := c, levels := none } }

/-- `respond(OK, [L[0], …, L[7]])` (R12, R73, R139): the eight levels as one snapshot. -/
def respondLevels (s : State R) : State R :=
  { s with response := some { code := .ok, levels := some s.levels } }

/-! ## The flags and registers the commands write -/

/-- Playing is turned on: `PLAYING <- 1 ; SINK_ERR <- 0` (R133, R135). It is also how a caller recovers from
`SinkUnavailable` (R169). -/
def turnOn (s : State R) : State R := { s with playing := true, sinkErr := false }

/-- Playing is turned off: `PLAYING <- 0` (R134, R135). -/
def turnOff (s : State R) : State R := { s with playing := false }

/-- A tick is asked for: `TICK_REQ <- 1` (R137, R138). -/
def requestTick (s : State R) : State R := { s with tickReq := true }

/-- `SETFREQ(low, high)` (R110): both frequency registers, neither phase. -/
def setFreq (lo hi : Word) (s : State R) : State R := { s with fLo := lo, fHi := hi }

/-- `L[0..7] <- v`, all eight entries in one action (R12, R35). -/
def setLevels (v : Vector R 8) (s : State R) : State R := { s with levels := v }

/-- `SEQ <- q` (R12). -/
def setSeq (q : Seq) (s : State R) : State R := { s with seq := q }

/-- Both phase registers, as `RENDER` leaves them (R111). -/
def setPhases (lo hi : R) (s : State R) : State R := { s with phLo := lo, phHi := hi }

/-! ## Exceptions (R160 to R168) -/

/-- The three exceptions (R160). -/
inductive Exc where
  | invalidSymbol
  | sinkUnavailable
  | illegalCommand
  deriving DecidableEq, Repr

/-- The cause code of an exception (R160): the numbers of the response codes. -/
def excCode : Exc → Byte
  | .invalidSymbol => 1
  | .sinkUnavailable => 2
  | .illegalCommand => 3

/-- `raise <Exception>` (R12). The exceptions of commands change nothing and answer their code (R161, R163, R167);
`SinkUnavailable` has the entry of R168 and no response. Nothing is saved and control goes to no handler. -/
def raise (N : Num R) (e : Exc) (s : State R) : State R :=
  match e with
  | .invalidSymbol => respond .invalidSymbol s
  | .illegalCommand => respond .illegalCommand s
  | .sinkUnavailable =>
    { s with playing := false, levels := zeroLevels N, sinkErr := true, seq := .rest }

/-! ## The sink transactions (R56, R58) -/

/-- The answer the sink gives to the next `QCAP`: the scripted one, or the oracle's (R57). -/
def nextCap (k : SinkPort) : CapAnswer :=
  match k.capScript with
  | a :: _ => a
  | [] => capAnswerOf (Config.sinkCapWord k.capAsked)

/-- The answer the sink gives to the next `SINKWR`: the scripted one, or the oracle's (R57). -/
def nextWr (k : SinkPort) : WrAnswer :=
  match k.wrScript with
  | a :: _ => a
  | [] => wrAnswerOf (Config.sinkWrBit k.wrAsked)

/-- The sink after a capacity query has been answered. -/
def capDone (k : SinkPort) : SinkPort :=
  { k with capScript := k.capScript.tail, capAsked := k.capAsked + 1 }

/-- The sink after a write has been answered: on `Ok` the stream has grown by exactly the buffer (R58), on `Fail` by
nothing. -/
def wrDone (buf : List Sample) (k : SinkPort) : SinkPort :=
  { k with
    wrScript := k.wrScript.tail
    wrAsked := k.wrAsked + 1
    stream := match nextWr k with
      | .ok => k.stream ++ buf
      | .fail => k.stream }

/-- `SinkCap()`, the transaction `QCAP` (R56): the answer, and the state after it. -/
def sinkCap (s : State R) : CapAnswer × State R :=
  (nextCap s.sink, { s with sink := capDone s.sink })

/-- `SinkWrite(buf)`, the transaction `SINKWR` (R58): the answer, and the state after it. -/
def sinkWrite (buf : List Sample) (s : State R) : WrAnswer × State R :=
  (nextWr s.sink, { s with sink := wrDone buf s.sink })

end Sys2Proof.Machine
end

