-- ==== Sys2Proof/Machine/Commands.lean ====
section
/-! DEFINITION. The meanings of the seven commands (43_controller.md, section 2). Each ends with one response (R72) and none
changes `SEQ` (R28). They are of every record `NUM`; the last definition runs a command in a given one. -/

namespace Sys2Proof.Machine

variable {R : Type}

/-- `PLAY` (R133). -/
def execPlay (s : State R) : Host.Outcome (State R) Fault Refusal := .next (respond .ok (turnOn s))

/-- `STOP` (R134). -/
def execStop (s : State R) : Host.Outcome (State R) Fault Refusal := .next (respond .ok (turnOff s))

/-- `TOGGLE` (R135): in `Idle` as `PLAY`, in `Streaming` as `STOP`. -/
def execToggle (s : State R) : Host.Outcome (State R) Fault Refusal :=
  .next (respond .ok (if s.playing then turnOff s else turnOn s))

/-- `SELECT g` (R136) in the record `N`: `SETFREQ` of the glyph's pair, or `InvalidSymbol`. -/
def selectIn (N : Num R) (g : Byte) (s : State R) : Host.Outcome (State R) Fault Refusal :=
  match lookup g with
  | none => .next (raise N .invalidSymbol s)
  | some (lo, hi) => .next (respond .ok (setFreq lo hi s))

/-- `SELECT g` (R136) in the machine's record. -/
def execSelect (g : Byte) (s : State) : Host.Outcome State Fault Refusal := selectIn machineNum g s

/-- `TICK` (R137). -/
def execTick (s : State R) : Host.Outcome (State R) Fault Refusal := .next (respond .ok (requestTick s))

/-- `NOTIFY` (R138): its effect on the state is that of `TICK`. -/
def execNotify (s : State R) : Host.Outcome (State R) Fault Refusal := .next (respond .ok (requestTick s))

/-- `POLL` (R139): the response carries the level vector; no other state is written. -/
def execPoll (s : State R) : Host.Outcome (State R) Fault Refusal := .next (respondLevels s)

/-- A command in the record `N` (R7: `NUM` is an argument of the model). `exec` is this in the machine's record. -/
def execIn (N : Num R) (i : Instr) (s : State R) : Host.Outcome (State R) Fault Refusal :=
  match i with
  | .play => execPlay s
  | .stop => execStop s
  | .toggle => execToggle s
  | .select g => selectIn N g s
  | .tick => execTick s
  | .notify => execNotify s
  | .poll => execPoll s

end Sys2Proof.Machine
end

