-- ==== Sys2Proof/Machine/Dispatch.lean ====
section
/-! DEFINITION. One arm per command. -/

namespace Sys2Proof.Machine

def exec (i : Instr) (s : State) : Host.Outcome State Fault Refusal :=
  match i with
  | .play => Sys2Proof.Machine.execPlay s
  | .stop => Sys2Proof.Machine.execStop s
  | .toggle => Sys2Proof.Machine.execToggle s
  | .select g => Sys2Proof.Machine.execSelect g s
  | .tick => Sys2Proof.Machine.execTick s
  | .notify => Sys2Proof.Machine.execNotify s
  | .poll => Sys2Proof.Machine.execPoll s

end Sys2Proof.Machine
end

