-- ==== Sys2Proof/Decode.lean ====
section
/-! DEFINITION. The decoder of the command word, total on all 65536 words (R80), and the encoder beside it (R77). -/

namespace Sys2Proof

/-- Why a command word is no command: the three kinds of illegal word of R80. -/
inductive IllegalWord where
  /-- `op = 0x00` -/
  | opZero
  /-- `op` in 0x08..0xFF -/
  | opHigh
  /-- an argument-less opcode with `arg ≠ 0x00` -/
  | argNotZero
  deriving DecidableEq, Repr

/-- The command `i` of an argument-less opcode, which needs `arg = 0x00` (R80). -/
def noArg (arg : Byte) (i : Instr) : Except IllegalWord Instr :=
  if arg = 0x00#8 then .ok i else .error .argNotZero

/-- Decoding (R80): by `op = CW[15:8]` and `arg = CW[7:0]`. -/
def decode (w : Word) : Except IllegalWord Instr :=
  match w.op.toNat with
  | 0x00 => .error .opZero
  | 0x01 => noArg w.arg .play
  | 0x02 => noArg w.arg .stop
  | 0x03 => noArg w.arg .toggle
  | 0x04 => .ok (.select w.arg)
  | 0x05 => noArg w.arg .tick
  | 0x06 => noArg w.arg .notify
  | 0x07 => noArg w.arg .poll
  | _ => .error .opHigh

/-- The opcode of a command (R77). -/
def Instr.op : Instr → Byte
  | .play => 0x01
  | .stop => 0x02
  | .toggle => 0x03
  | .select _ => 0x04
  | .tick => 0x05
  | .notify => 0x06
  | .poll => 0x07

/-- The argument byte of a command (R77, R78): the glyph code of `SELECT`, otherwise 0x00. -/
def Instr.arg : Instr → Byte
  | .play => 0x00
  | .stop => 0x00
  | .toggle => 0x00
  | .select g => g
  | .tick => 0x00
  | .notify => 0x00
  | .poll => 0x00

/-- The command word `{op, arg}` (R71, R77). -/
def encode (i : Instr) : Word := i.op ++ i.arg

/-- What the decoder reads from the command whose bits are `w`: the low `nbits` bits are the word, all others 0; a
number that does not fit the one 16-bit length (R82) is no command. -/
def decodeTableWord (nbits w : Nat) : Option Instr :=
  if w % 2 ^ nbits < 2 ^ 16 then
    match decode (BitVec.ofNat 16 (w % 2 ^ nbits)) with
    | .ok i => some i
    | .error _ => none
  else none

end Sys2Proof
end

