-- ==== Sys2Proof/Machine/Detector.lean ====
section
/-! DEFINITION. The Goertzel detector (40_detector.md) and the bank of eight lanes (41_table_bank.md), over any numerics
record. -/

namespace Sys2Proof.Machine

variable {R : Type}

/-- The scratch of one lane (R26): `q1` and `q2`, local to one invocation. -/
structure Scratch (R : Type) where
  q1 : R
  q2 : R
  deriving DecidableEq, Repr

/-- The angle `w = ((2π · ofInt(f)) / ofInt(fs))` (R91). -/
def angle (N : Num R) (rate f : Nat) : R := N.div (N.mul N.twoPi (N.ofInt f)) (N.ofInt rate)

/-- `coeff = ofInt(2) · cos(w)` (R91). -/
def coeff (N : Num R) (w : R) : R := N.mul (N.ofInt 2) (N.cos w)

/-- One sample of the recurrence: `q0 = ((coeff · q1) − q2) + ofInt(x)` (R91). A sample enters as its exact integer. -/
def goertzelStep (N : Num R) (c : R) (q : Scratch R) (x : Sample) : Scratch R :=
  { q1 := N.add (N.sub (N.mul c q.q1) q.q2) (N.ofInt x.toInt), q2 := q.q1 }

/-- The recurrence over all samples in index order, from `q` (R91). -/
def goertzel (N : Num R) (c : R) : List Sample → Scratch R → Scratch R
  | [], q => q
  | x :: xs, q => goertzel N c xs (goertzelStep N c q x)

/-- `sqrt((re · re) + (im · im))` with `re = (q1 − (q2 · c)) / half`, `im = (q2 · s) / half` and `half = ofInt(N) / ofInt(2)`,
a real quotient (R91, R92). -/
def magnitude (N : Num R) (w : R) (len : Nat) (q : Scratch R) : R :=
  let half := N.div (N.ofInt len) (N.ofInt 2)
  let re := N.div (N.sub q.q1 (N.mul q.q2 (N.cos w))) half
  let im := N.div (N.mul q.q2 (N.sin w)) half
  N.sqrt (N.add (N.mul re re) (N.mul im im))

/-- The body of `DETECT` on a block of at least one sample (R91). -/
def detectBlock (N : Num R) (xs : List Sample) (rate f : Nat) : R :=
  let w := angle N rate f
  magnitude N w xs.length (goertzel N (coeff N w) xs { q1 := N.zero, q2 := N.zero })

/-- `DETECT(samples, sampleRate, targetFreq)` (R90); none on an empty block, which is outside its contract (R93). -/
def detect (N : Num R) (xs : List Sample) (rate f : Nat) : Option R :=
  if xs.isEmpty then none else some (detectBlock N xs rate f)

/-- Lane `k` of the bank over a block (R105, R106). -/
def lane (N : Num R) (xs : List Sample) (k : Fin 8) : R := detectBlock N xs fs freqTable[k].toNat

/-- `DETECTALL(block)` (R105): the eight magnitudes in canonical order; none on an empty block (R93). -/
def detectAll (N : Num R) (xs : List Sample) : Option (Vector R 8) :=
  if xs.isEmpty then none
  else some #v[lane N xs 0, lane N xs 1, lane N xs 2, lane N xs 3, lane N xs 4, lane N xs 5, lane N xs 6, lane N xs 7]

/-! ## The derived constants of a lane (R38) -/

/-- `W[k]` (R38). -/
def laneW (N : Num R) (k : Fin 8) : R := angle N fs freqTable[k].toNat

/-- `COEFF[k]` (R38). -/
def laneCoeff (N : Num R) (k : Fin 8) : R := coeff N (laneW N k)

/-- `COSW[k]` (R38). -/
def laneCos (N : Num R) (k : Fin 8) : R := N.cos (laneW N k)

/-- `SINW[k]` (R38). -/
def laneSin (N : Num R) (k : Fin 8) : R := N.sin (laneW N k)

end Sys2Proof.Machine
end

