-- ==== Sys2Proof/Machine/Generator.lean ====
section
/-! DEFINITION. The tone generator (42_generator.md), over any numerics record: `INCR`, `wrap` and `RENDER`. -/

namespace Sys2Proof.Machine

variable {R : Type}

/-- The two phase accumulators (R21). -/
structure Phases (R : Type) where
  lo : R
  hi : R
  deriving DecidableEq, Repr

/-- `INCR(f) = ((2π · ofInt(f)) / ofInt(FS))`, the phase increment of one sample (R112). -/
def incr (N : Num R) (f : Word) : R := N.div (N.mul N.twoPi (N.ofInt f.toNat)) (N.ofInt fs)

/-- `while p ≥ 2π: p = p − 2π ; return p` (R113), the pseudocode's loop itself: the value it ends with, and none just where it
never ends. -/
def wrapWhile (N : Num R) (p : R) : Option R :=
  if N.ge p N.twoPi then wrapWhile N (N.sub p N.twoPi) else some p
partial_fixpoint

/-- The loop of R113 run for at most `n` passes; none where that many do not end it. -/
def wrapLoop (N : Num R) : Nat → R → Option R
  | 0, p => if N.ge p N.twoPi then none else some p
  | n + 1, p => if N.ge p N.twoPi then wrapLoop N n (N.sub p N.twoPi) else some p

/-- The loop of `wrap(p)` ends, after however many passes, and gives `q` (R113). -/
def WrapsTo (N : Num R) (p q : R) : Prop := ∃ n, wrapLoop N n p = some q

/-- How many passes are tried first. In `F64` and in `IDEAL` they are enough wherever the loop ends. -/
def wrapPasses (N : Num R) (p : R) : Nat := (N.round p).toNat + 1

/-- `wrap(p)` (R113), in every record: what the loop ends with, and none just where it never ends (log 6). The passes tried
first make it a computation that the kernel can follow; where they do not end the loop, the loop itself decides. -/
def wrap (N : Num R) (p : R) : Option R :=
  match wrapLoop N (wrapPasses N p) p with
  | some q => some q
  | none => wrapWhile N p

/-- A phase register's advance over one sample: `wrap(PH + INCR(F))` (R111). An inactive oscillator does not advance
(R112, R21); `PH + INCR(0)` is `PH` again (log 7). -/
def advance (N : Num R) (f : Word) (ph : R) : Option R :=
  if f = 0 then some ph else wrap N (N.add ph (incr N f))

/-- An oscillator's term `round(sin(phase) · VOLUME)`, or 0 where it is inactive (R111, R114). -/
def term (N : Num R) (volume : Nat) (f : Word) (ph : R) : Int :=
  if f = 0 then 0 else N.round (N.mul (N.sin ph) (N.ofInt volume))

/-- The sum `t` of the two terms, as an integer without loss (R115). -/
def sampleSum (N : Num R) (volume : Nat) (fLo fHi : Word) (ph : Phases R) : Int :=
  term N volume fLo ph.lo + term N volume fHi ph.hi

/-- Both phases advanced by one sample; none where a `wrap` does not end. -/
def advanceBoth (N : Num R) (fLo fHi : Word) (ph : Phases R) : Option (Phases R) :=
  match advance N fLo ph.lo, advance N fHi ph.hi with
  | some lo, some hi => some { lo := lo, hi := hi }
  | _, _ => none

/-- `RENDER(count)` (R111): the samples in index order, each computed from the phases before its advance, and the phases
left. None where a `wrap` does not end. -/
def render (N : Num R) (p : Params) (fLo fHi : Word) : Nat → Phases R → Option (List Sample × Phases R)
  | 0, ph => some ([], ph)
  | n + 1, ph =>
    match advanceBoth N fLo fHi ph with
    | none => none
    | some ph' =>
      match render N p fLo fHi n ph' with
      | none => none
      | some (xs, ph'') => some (trunc16 p.ovf (sampleSum N p.volume fLo fHi ph) :: xs, ph'')

end Sys2Proof.Machine
end

