-- ==== Sys2Proof/Machine/Controller.lean ====
section
/-! DEFINITION. The controller's own steps (43_controller.md, section 3): `TBEGIN`, `CYCLE`, and the choice between them, in any
record `NUM`. -/

namespace Sys2Proof.Machine

variable {R : Type}

/-- `TBEGIN` (R140): `TICK_REQ <- 0 ; SEQ <- HEAD`. -/
def tbegin (s : State R) : State R := { s with tickReq := false, seq := .head }

/-- The idle branch of `CYCLE` (R141, R142, R147): `L[0..7] <- 0 ; SEQ <- REST`. -/
def idleCycle (N : Num R) (s : State R) : State R := setSeq .rest (setLevels (zeroLevels N) s)

/-- The last part of a render cycle (R141, R146): the buffer is written, then detected, then `L` is overwritten; `SEQ` stays
`HEAD`. A failed write raises `SinkUnavailable` and nothing is detected. -/
def writeAndDetect (N : Num R) (buf : List Sample) (s : State R) : Host.Outcome (State R) Fault Refusal :=
  match sinkWrite buf s with
  | (.fail, s') => .next (raise N .sinkUnavailable s')
  | (.ok, s') =>
    match detectAll N buf with
    | none => .refused .emptyBlock
    | some v => .next (setLevels v s')

/-- Step 3 of the pull loop (R141): exactly `n` samples are rendered, which advances the phases, then written and
detected. -/
def renderCycle (N : Num R) (n : Nat) (s : State R) : Host.Outcome (State R) Fault Refusal :=
  match render N s.params s.fLo s.fHi n { lo := s.phLo, hi := s.phHi } with
  | none => .fault .phaseWrapDiverges
  | some (buf, ph) => writeAndDetect N buf (setPhases ph.lo ph.hi s)

/-- Steps 1 and 2 of the pull loop (R141): the capacity query, and the unsigned comparison with `THRESHOLD` (R145). -/
def pullCycle (N : Num R) (s : State R) : Host.Outcome (State R) Fault Refusal :=
  match sinkCap s with
  | (.fail, s') => .next (raise N .sinkUnavailable s')
  | (.ok n, s') =>
    if n.toNat < s'.params.threshold then .next (setSeq .rest s') else renderCycle N n.toNat s'

/-- `CYCLE` (R141). -/
def cycle (N : Num R) (s : State R) : Host.Outcome (State R) Fault Refusal :=
  if !s.playing || bothInactive s then .next (idleCycle N s) else pullCycle N s

/-- The controller's turn: the one step that is enabled, if one is (R130, R140, R141); a quiescent controller has none and
leaves the state as it is (R149). -/
def controllerTurn (N : Num R) (s : State R) : Host.Outcome (State R) Fault Refusal :=
  if cycleEnabled s then cycle N s
  else if tbeginEnabled s then .next (tbegin s)
  else .next s

end Sys2Proof.Machine
end

