-- ==== Sys2Proof/Machine/Turn.lean ====
section
/-! DEFINITION. One turn of one agent (R130): a command word taken from the port, a controller step, or reset; and which
input is next. -/

namespace Sys2Proof.Machine

/-- The input that is next: the scripted one, or the environment's free value (R130, R150). -/
def nextInput (a : Agents) : Input :=
  match a.script with
  | i :: _ => i
  | [] => Config.input a.drawn

/-- The agents after the next input has been taken. -/
def inputDone (a : Agents) : Agents :=
  match a.script with
  | _ :: r => { a with script := r }
  | [] => { a with drawn := a.drawn + 1 }

variable {R : Type}

/-- The state in which the next input acts: the input is taken, and no response has been sent in this step yet. -/
def takeInput (s : State R) : State R := { s with agents := inputDone s.agents, response := none }

/-- A command word is taken (R80, R81, R130): decoding comes first (R166); `run` runs the command it decodes to; an illegal
word raises `IllegalCommand`. -/
def takeCommand (N : Num R) (run : Instr → State R → Host.Outcome (State R) Fault Refusal) (w : Word) (s : State R) :
    Host.Outcome (State R) Fault Refusal :=
  match decode w with
  | .ok i => run i s
  | .error _ => .next (raise N .illegalCommand s)

/-- Reset (R185, R186): every element of the state tuple takes its reset value; the parameters, the sink with its stream,
and the commands waiting at the port stay. -/
def construct (N : Num R) (s : State R) : State R :=
  { initial N s.params with sink := s.sink, agents := s.agents }

/-- One indivisible step of the agent that `i` names (R130). -/
def takeTurn (N : Num R) (run : Instr → State R → Host.Outcome (State R) Fault Refusal) (i : Input) (s : State R) :
    Host.Outcome (State R) Fault Refusal :=
  match i with
  | .command w => takeCommand N run w s
  | .controller => controllerTurn N s
  | .reset => .next (construct N s)

end Sys2Proof.Machine
end

