-- ==== Sys2Proof/Machine/Step.lean ====
section
/-! DEFINITION. The step function, and a command placed where the next step takes it. -/

namespace Sys2Proof.Machine

/-- One step of an instance with the record `N` (R7, R130): the agent that the next input names acts once. -/
def stepIn {R : Type} (N : Num R) (s : State R) : Host.Outcome (State R) Fault Refusal :=
  takeTurn N (execIn N) (nextInput s.agents) (takeInput s)

/-- One step of the machine, the instance of the default record `F64`; its commands are run by `exec`. -/
def step (s : State) : Host.Outcome State Fault Refusal :=
  takeTurn machineNum exec (nextInput s.agents) (takeInput s)

/-- `s` with the command word `w` (its bits above `nbits` zero) waiting at the port and its source next to act. The block
fetches nothing (R27): a command comes from outside (log 3). -/
def State.withFetchWord (s : State) (nbits w : Nat) : State :=
  { s with
    agents := { s.agents with
      script := .command (BitVec.ofNat 16 (w % 2 ^ nbits)) :: s.agents.script } }

end Sys2Proof.Machine
end

