-- ==== Sys2Proof/Machine/Ideal.lean ====
section
/-! DEFINITION. The instantiation `IDEAL` of the numerics record (R9): the real numbers, every field the exact mathematical
function. It is not computable; the step of the machine uses `F64`, and the rules stated over every record hold of both. -/

namespace Sys2Proof.Machine

/-- Rounding to the nearest integer with ties away from zero (R9, D7). -/
noncomputable def idealRound (x : ℝ) : Int := if 0 ≤ x then ⌊x + 1 / 2⌋ else -⌊-x + 1 / 2⌋

/-- `IDEAL` (R9). Every field is total (R8), and R9 gives a quotient by zero and the square root of a negative number no value;
both are 0 here, as in Mathlib (DESIGN CHOICE, log 10). -/
noncomputable def ideal : Num ℝ :=
  { ofInt := fun n => (n : ℝ)
    add := fun a b => a + b
    sub := fun a b => a - b
    mul := fun a b => a * b
    div := fun a b => a / b
    sin := Real.sin
    cos := Real.cos
    sqrt := Real.sqrt
    twoPi := 2 * Real.pi
    lt := fun a b => decide (a < b)
    round := idealRound }

/-- Every number of `IDEAL` is itself as a real number. -/
def idealVal (x : ℝ) : Option ℝ := some x

end Sys2Proof.Machine
end

