-- ==== Sys2Proof/Machine/NumProps.lean ====
section
/-! DEFINITION. The named properties of a numerics record (R10), as predicates a claim takes as hypotheses, and what correct
rounding means for `F64` (R9). `val` gives the real number a value of the carrier stands for, none where it stands for none. -/

namespace Sys2Proof.Machine

variable {R : Type}

/-- NUM-ZERO (R10): what the operations named there give on zeros is numerically zero, "a negative zero counts as zero",
among the operands too (DEDUCED, log 8). -/
structure NumZero (N : Num R) (val : R → Option ℝ) : Prop where
  zero : val N.zero = some 0
  add : ∀ a b, val a = some 0 → val b = some 0 → val (N.add a b) = some 0
  sub : ∀ a b, val a = some 0 → val b = some 0 → val (N.sub a b) = some 0
  mul : ∀ c z, (val c).isSome → val z = some 0 → val (N.mul c z) = some 0
  div : ∀ z h, val z = some 0 → val h ≠ some 0 → val (N.div z h) = some 0
  sqrt : ∀ z, val z = some 0 → val (N.sqrt z) = some 0
  sin : val (N.sin N.zero) = some 0

/-- A product with a zero on the left is numerically zero. R10 lists only `mul(c, zero)`; the `q2 · c` of `DETECT` needs this
too (DEDUCED, log 8). -/
def MulZeroLeft (N : Num R) (val : R → Option ℝ) : Prop :=
  ∀ z c, val z = some 0 → (val c).isSome → val (N.mul z c) = some 0

/-- NUM-TRIG (R10): on `[0, 2π)`, `sin` and `cos` are within `2^−52` of the exact values and `sin` is at most 1 in size. The range
`0 ≤ x < 2π` is read by the record's own comparison and its own `2π`, as R8 reads them on values of `R` and as NUM-RANGE and
NUM-WRAP take a phase (DEDUCED, log 26). -/
def NumTrig (N : Num R) (val : R → Option ℝ) : Prop :=
  ∀ x, N.inTurn x = true →
    ∃ r s c, val x = some r ∧ val (N.sin x) = some s ∧ val (N.cos x) = some c ∧
      |s - Real.sin r| ≤ (2 : ℝ) ^ (-52 : ℤ) ∧ |c - Real.cos r| ≤ (2 : ℝ) ^ (-52 : ℤ) ∧ |s| ≤ 1

/-- NUM-RANGE (R10): an oscillator's rounded term lies in `[−V, V]` for every phase and every `V` in 0..32767. -/
def NumRange (N : Num R) : Prop :=
  ∀ p (V : Nat), N.inTurn p = true → V ≤ 32767 →
    -(V : Int) ≤ N.round (N.mul (N.sin p) (N.ofInt V)) ∧ N.round (N.mul (N.sin p) (N.ofInt V)) ≤ V

/-- NUM-WRAP (R10): for `0 ≤ p < 2π` and `0 ≤ d` the loop of R113 on `p + d` ends, after however many passes, with a value in
`[0, 2π)`. -/
def NumWrap (N : Num R) : Prop :=
  ∀ p d, N.inTurn p = true → N.ge d N.zero = true → ∃ q, WrapsTo N (N.add p d) q ∧ N.inTurn q = true

/-! ## The real number of a pattern -/

/-- The real number of a finite pattern: `±m·2^e`. -/
noncomputable def F64.toReal (x : F64) : ℝ :=
  (if F64.neg x then -1 else 1) * (F64.mant x : ℝ) * (2 : ℝ) ^ F64.expo x

/-- The real number a pattern stands for; none for an infinity or a NaN. -/
noncomputable def F64.val (x : F64) : Option ℝ := if F64.finite x then some (F64.toReal x) else none

/-- `r` is `x` correctly rounded, to nearest, ties to even (R9): `r` is finite, no finite number is nearer, and where
another is as near the significand of `r` is even; from the midpoint past the largest finite number on, an infinity. -/
def F64.Rounds (x : ℝ) (r : F64) : Prop :=
  if |x| < (2 : ℝ) ^ 1024 - (2 : ℝ) ^ 970 then
    F64.finite r = true ∧
      ∀ y, F64.finite y = true →
        |F64.toReal r - x| ≤ |F64.toReal y - x| ∧
          (|F64.toReal r - x| = |F64.toReal y - x| → F64.toReal y = F64.toReal r ∨ F64.frac r % 2 = 0)
  else r = F64.inf (decide (x < 0))

end Sys2Proof.Machine
end

