-- ==== Sys2Proof/Machine/Pseudo.lean ====
section
/-! DEFINITION. What the pseudo-instructions of R84 do when they are issued with no other step between their commands. -/

namespace Sys2Proof.Machine

/-- The last response is `OK`. -/
def answeredOk (s : State) : Bool :=
  match s.response with
  | some r => decide (r.code = .ok)
  | none => false

/-- `PRESS g` is `SELECT g`, then `PLAY` unless the `SELECT` was answered `INVALID_SYMBOL`; `RELEASE` is `STOP` (R84). -/
def issue (p : Pseudo) (s : State) : Host.Outcome State Fault Refusal :=
  match p with
  | .release => exec .stop s
  | .press g =>
    match exec (.select g) s with
    | .next s' => if answeredOk s' then exec .play s' else .next s'
    | .fault r => .fault r
    | .refused r => .refused r

end Sys2Proof.Machine
end

