-- ==== Sys2Proof/Safety.lean ====
section
/-! DEFINITION. What counts as a legal state, in the terms the claims use, and the duties of the sink (R59). -/

namespace Sys2Proof.Machine

/-- A phase register's value lies in `[0, 2π)` (R22). -/
def phaseOk (x : F64) : Bool := machineNum.inTurn x

/-- A value of `F_LO` that the command port can bring about: 0 or a low-group frequency (R24). -/
def lowOk (f : Word) : Bool := f == 0 || f == 697 || f == 770 || f == 852 || f == 941

/-- A value of `F_HI` that the command port can bring about: 0 or a high-group frequency (R24). -/
def highOk (f : Word) : Bool := f == 0 || f == 1209 || f == 1336 || f == 1477 || f == 1633

/-- A level is not negative (R35). -/
def levelOk (x : F64) : Bool := !F64.lt x 0

/-- The invariant of the state: what R20, R22, R24, R33 and R35 say of the elements' ranges, and that `SINK_ERR` is set
only in `Idle` (R31, R133, R135, R168). -/
structure Inv (s : State) : Prop where
  phLo : phaseOk s.phLo = true
  phHi : phaseOk s.phHi = true
  fLo : lowOk s.fLo = true
  fHi : highOk s.fHi = true
  both : s.fLo = 0 ↔ s.fHi = 0
  levels : ∀ k : Fin 8, levelOk s.levels[k] = true
  params : s.params.wf = true
  sinkErr : s.sinkErr = true → s.playing = false

/-- The `i`-th of the sink's coming answers to `QCAP`: scripted, or the oracle's (R57). -/
def capAt (k : SinkPort) (i : Nat) : CapAnswer :=
  match k.capScript[i]? with
  | some a => a
  | none => capAnswerOf (Config.sinkCapWord (k.capAsked + i))

/-- The `i`-th of the sink's coming answers to `SINKWR`: scripted, or the oracle's (R57). -/
def wrAt (k : SinkPort) (i : Nat) : WrAnswer :=
  match k.wrScript[i]? with
  | some a => a
  | none => wrAnswerOf (Config.sinkWrBit (k.wrAsked + i))

/-- The sink's duty S1 (R59): a capacity it reports is space it accepts, so every coming write is answered `Ok`. -/
def dutyS1 (k : SinkPort) : Prop := ∀ i, wrAt k i = .ok

/-- An answer to `QCAP` at which a tick ends: `Fail`, or a capacity below the threshold (R59, R141). -/
def endsTick (threshold : Nat) : CapAnswer → Bool
  | .fail => true
  | .ok n => decide (n.toNat < threshold)

/-- The sink's duty S2 (R59): some coming answer to `QCAP` is below the threshold or `Fail`. -/
def dutyS2 (threshold : Nat) (k : SinkPort) : Prop := ∃ i, endsTick threshold (capAt k i) = true

/-- Up to `n` `CYCLE`s of the tick in progress, with no other agent acting between them. -/
def runTick {R : Type} (N : Num R) : Nat → State R → Host.Outcome (State R) Fault Refusal
  | 0, s => .next s
  | n + 1, s =>
    if cycleEnabled s then
      match cycle N s with
      | .next s' => runTick N n s'
      | .fault r => .fault r
      | .refused r => .refused r
    else .next s

end Sys2Proof.Machine
end

