-- ==== Sys2Proof/Certificates/Slice0/Obligations.lean ====
section
/-! DEFINITION. The statements for the provers. -/

open Sys2Proof Sys2Proof.Machine

/-! ## Decoding and encoding -/

/-- R80: decoding is total; every word with `op = 0x04` is `SELECT`, six words are the argument-less commands, and every
other word is illegal, in the three kinds the rule lists. -/
def Obligations.EveryWordDecodesByOpAndArg : Prop :=
  ∀ w : Word,
    (w.op = 0x04#8 → decode w = .ok (.select w.arg)) ∧
    (w.op = 0x01#8 → w.arg = 0x00#8 → decode w = .ok .play) ∧
    (w.op = 0x02#8 → w.arg = 0x00#8 → decode w = .ok .stop) ∧
    (w.op = 0x03#8 → w.arg = 0x00#8 → decode w = .ok .toggle) ∧
    (w.op = 0x05#8 → w.arg = 0x00#8 → decode w = .ok .tick) ∧
    (w.op = 0x06#8 → w.arg = 0x00#8 → decode w = .ok .notify) ∧
    (w.op = 0x07#8 → w.arg = 0x00#8 → decode w = .ok .poll) ∧
    (w.op = 0x00#8 → decode w = .error .opZero) ∧
    (0x08#8 ≤ w.op → decode w = .error .opHigh) ∧
    (w.op ∈ [0x01#8, 0x02#8, 0x03#8, 0x05#8, 0x06#8, 0x07#8] → w.arg ≠ 0x00#8 → decode w = .error .argNotZero)

/-- R77: a word is a command if and only if `CW & mask = match`, row by row of the opcode map. -/
def Obligations.CommandWordsMatchTheOpcodeMap : Prop :=
  ∀ w : Word,
    (decode w = .ok .play ↔ w &&& 0xFFFF#16 = 0x0100#16) ∧
    (decode w = .ok .stop ↔ w &&& 0xFFFF#16 = 0x0200#16) ∧
    (decode w = .ok .toggle ↔ w &&& 0xFFFF#16 = 0x0300#16) ∧
    (∀ g : Byte, decode w = .ok (.select g) ↔ w &&& 0xFF00#16 = 0x0400#16 ∧ w.extractLsb' 0 8 = g) ∧
    (decode w = .ok .tick ↔ w &&& 0xFFFF#16 = 0x0500#16) ∧
    (decode w = .ok .notify ↔ w &&& 0xFFFF#16 = 0x0600#16) ∧
    (decode w = .ok .poll ↔ w &&& 0xFFFF#16 = 0x0700#16)

/-- The encoder and the decoder agree in both directions: a word decodes to the command `i` if and only if it is the word
of `i`, with every glyph code of `SELECT`. -/
def Obligations.DecodeAndEncodeAgree : Prop :=
  ∀ (w : Word) (i : Instr), i.wf = true → (decode w = .ok i ↔ encode i = w)

/-- Words written out from the opcode map, one for each command, and one illegal word of each kind (95_test_vectors.md,
section 2.5). -/
def Obligations.WrittenOutWordsDecode : Prop :=
  decode 0b0000000100000000#16 = .ok .play ∧
  decode 0b0000001000000000#16 = .ok .stop ∧
  decode 0b0000001100000000#16 = .ok .toggle ∧
  decode 0b0000010000110101#16 = .ok (.select 0x35#8) ∧
  decode 0b0000010100000000#16 = .ok .tick ∧
  decode 0b0000011000000000#16 = .ok .notify ∧
  decode 0b0000011100000000#16 = .ok .poll ∧
  decode 0x0000#16 = .error .opZero ∧ decode 0x0101#16 = .error .argNotZero ∧ decode 0x0800#16 = .error .opHigh

/-! ## The step -/

/-- A step runs the decoded command: where the agents' next input is the command word `w` and `w` decodes to `i`, the step is
`exec i` on the state with that input taken and no response sent yet; a word waiting in the script is taken from its front,
and a word that `withFetchWord` places is taken and leaves the script as it was (log 3, log 13). The same in every numerics
record (R7), of which the machine's step and its `exec` are those of `machineNum` (log 9). -/
def Obligations.StepRunsTheDecodedCommand : Prop :=
  (∀ (s : State) (w : Word) (i : Instr), decode w = .ok i →
    (nextInput s.agents = .command w → step s = exec i (takeInput s)) ∧
    (∀ rest, s.agents.script = .command w :: rest →
      step s = exec i { s with agents := { s.agents with script := rest }, response := none }) ∧
    step (s.withFetchWord 16 w.toNat) = exec i { s with response := none }) ∧
  (∀ (R : Type) (N : Num R) (s : State R) (w : Word) (i : Instr), decode w = .ok i →
    nextInput s.agents = .command w → stepIn N s = execIn N i (takeInput s)) ∧
  (∀ (s : State) (i : Instr), exec i s = execIn machineNum i s) ∧
  ∀ s : State, step s = stepIn machineNum s

/-- R163: a word outside the seven commands is answered 0x03 and changes no state. -/
def Obligations.IllegalWordIsAnsweredAndChangesNothing : Prop :=
  ∀ (s : State) (w : Word), nextInput s.agents = .command w → (∀ i, encode i ≠ w) →
    step s = .next { takeInput s with response := some { code := .illegalCommand, levels := none } } ∧
    respByte .illegalCommand = 0x03#8

/-- The model's own convention around every step: the input that acts leaves the script, or is the free value at the counter
(log 3, log 13), the old response is cleared (log 16), and nothing else changes. -/
def Obligations.TakingAnInputLeavesTheRest : Prop :=
  ∀ s : State,
    takeInput s = { s with agents := (takeInput s).agents, response := none } ∧
    (∀ i rest, s.agents.script = i :: rest →
      nextInput s.agents = i ∧ (takeInput s).agents = { s.agents with script := rest }) ∧
    (s.agents.script = [] →
      nextInput s.agents = Config.input s.agents.drawn ∧
      (takeInput s).agents = { s.agents with drawn := s.agents.drawn + 1 })

/-! ## The commands: result, frame and completion in one equation -/

/-- R133. -/
def Obligations.PlayTurnsPlayingOnAndClearsSinkErr : Prop :=
  encode .play = 0x0100#16 ∧
  ∀ s : State, exec .play s =
    .next { s with playing := true, sinkErr := false, response := some { code := .ok, levels := none } }

/-- R134. -/
def Obligations.StopTurnsPlayingOffAndNothingElse : Prop :=
  encode .stop = 0x0200#16 ∧
  ∀ s : State, exec .stop s = .next { s with playing := false, response := some { code := .ok, levels := none } }

/-- R135, with its corner case of two `TOGGLE`s in a row. -/
def Obligations.ToggleInvertsPlaying : Prop :=
  encode .toggle = 0x0300#16 ∧
  ∀ s : State,
    (s.playing = false → exec .toggle s =
      .next { s with playing := true, sinkErr := false, response := some { code := .ok, levels := none } }) ∧
    (s.playing = true → exec .toggle s =
      .next { s with playing := false, response := some { code := .ok, levels := none } }) ∧
    (∃ s₁ s₂, exec .toggle s = .next s₁ ∧ exec .toggle s₁ = .next s₂ ∧ s₂.playing = s.playing)

/-- R136, R110 and R101: for a code of the table, `LOOKUP` gives `FREQ[r]` and `FREQ[4+c]` of its row and column, and `SELECT`
writes both frequency registers with that pair, touches neither phase nor anything else, and answers `OK`; for any other
code `LOOKUP` gives nothing, and `SELECT` changes no state and answers `INVALID_SYMBOL`. -/
def Obligations.SelectSetsThePairOfItsGlyph : Prop :=
  (∀ g : Byte, encode (.select g) = 0x04#8 ++ g) ∧
  (∀ (lo hi : Word) (s : State), setFreq lo hi s = { s with fLo := lo, fHi := hi }) ∧
  ∀ s : State,
    (∀ k : KeyRow, k ∈ keyTable →
      lookup k.glyph = some (freqTable[k.row.val]'(by omega), freqTable[4 + k.col.val]'(by omega)) ∧
      exec (.select k.glyph) s =
        .next { s with
          fLo := freqTable[k.row.val]'(by omega)
          fHi := freqTable[4 + k.col.val]'(by omega)
          response := some { code := .ok, levels := none } }) ∧
    (∀ g : Byte, (∀ k ∈ keyTable, k.glyph ≠ g) →
      lookup g = none ∧ exec (.select g) s = .next { s with response := some { code := .invalidSymbol, levels := none } })

/-- R161: any other code raises `InvalidSymbol`: no state changes, and the response is 0x01. -/
def Obligations.SelectOfNoGlyphChangesNothing : Prop :=
  ∀ (s : State) (g : Byte), (∀ k ∈ keyTable, k.glyph ≠ g) →
    lookup g = none ∧
    exec (.select g) s = .next { s with response := some { code := .invalidSymbol, levels := none } } ∧
    respByte .invalidSymbol = 0x01#8

/-- R137. -/
def Obligations.TickAsksForATick : Prop :=
  encode .tick = 0x0500#16 ∧
  ∀ s : State, exec .tick s = .next { s with tickReq := true, response := some { code := .ok, levels := none } }

/-- R138: the effect of `NOTIFY` on the state is that of `TICK`. -/
def Obligations.NotifyActsAsTick : Prop :=
  encode .notify = 0x0600#16 ∧
  ∀ s : State,
    exec .notify s = .next { s with tickReq := true, response := some { code := .ok, levels := none } } ∧
    exec .notify s = exec .tick s

/-- R139: `POLL` answers the eight levels as one snapshot and writes nothing. -/
def Obligations.PollAnswersTheLevelVector : Prop :=
  encode .poll = 0x0700#16 ∧
  ∀ s : State, exec .poll s = .next { s with response := some { code := .ok, levels := some s.levels } }

/-- R84: `PRESS g` is `SELECT g` then `PLAY`; on a code that is no glyph it stops after the `SELECT`'s response; `RELEASE` is
`STOP`. That the two commands are issued in one go, with no step between and no input taken, is the model's choice (log 25). -/
def Obligations.PressStopsAfterARefusedSelect : Prop :=
  (∀ g : Byte, Pseudo.expand (.press g) = [.select g, .play]) ∧ Pseudo.expand .release = [.stop] ∧
  ∀ (s : State) (g : Byte),
    issue .release s = exec .stop s ∧
    (∀ lo hi, lookup g = some (lo, hi) → issue (.press g) s =
      .next { s with
        fLo := lo, fHi := hi, playing := true, sinkErr := false
        response := some { code := .ok, levels := none } }) ∧
    (lookup g = none → issue (.press g) s =
      .next { s with response := some { code := .invalidSymbol, levels := none } })

/-! ## The tables and the formats -/

/-- R102: the 16 entries of `KEY`, by glyph, as `LOOKUP` gives them. The spec marks all but the entry of `5` as from general
knowledge (log 1). -/
def Obligations.LookupGivesTheKeypadGrid : Prop :=
  [0x31, 0x32, 0x33, 0x41, 0x34, 0x35, 0x36, 0x42].map lookup =
    [some (697, 1209), some (697, 1336), some (697, 1477), some (697, 1633),
     some (770, 1209), some (770, 1336), some (770, 1477), some (770, 1633)] ∧
  [0x37, 0x38, 0x39, 0x43, 0x2A, 0x30, 0x23, 0x44].map lookup =
    [some (852, 1209), some (852, 1336), some (852, 1477), some (852, 1633),
     some (941, 1209), some (941, 1336), some (941, 1477), some (941, 1633)]

/-- R103: every glyph has exactly one pair, drawn from the table with one frequency of each group; no pair is shared by
two codes; and the 16 glyphs fill the grid: every low frequency with every high one. -/
def Obligations.LookupIsInjectiveAndFillsTheGrid : Prop :=
  allFrequencies = #v[697, 770, 852, 941, 1209, 1336, 1477, 1633] ∧
  keyTable.length = 16 ∧ (keyTable.map KeyRow.glyph).Nodup ∧
  (∀ g : Byte, (lookup g).isSome = true ↔ g ∈ keyTable.map KeyRow.glyph) ∧
  (∀ (g : Byte) (lo hi : Word), lookup g = some (lo, hi) →
    lo ∈ [697#16, 770#16, 852#16, 941#16] ∧ hi ∈ [1209#16, 1336#16, 1477#16, 1633#16]) ∧
  (∀ (g h : Byte) (p : Word × Word), lookup g = some p → lookup h = some p → g = h) ∧
  (∀ lo ∈ [697#16, 770#16, 852#16, 941#16], ∀ hi ∈ [1209#16, 1336#16, 1477#16, 1633#16],
    ∃ g : Byte, lookup g = some (lo, hi))

/-- R76 and R34: the status output is the four bits, bit by bit. -/
def Obligations.StatusShowsTheFourStateBits : Prop :=
  ∀ s : State,
    (status s).getLsbD 0 = s.playing ∧ (status s).getLsbD 1 = decide (s.seq = .head) ∧
    (status s).getLsbD 2 = s.tickReq ∧ (status s).getLsbD 3 = s.sinkErr

/-- R72 and R160: the response codes, and the causes of the three exceptions with the same numbers. -/
def Obligations.ResponseCodesAreTheCauseCodes : Prop :=
  respByte .ok = 0x00#8 ∧ respByte .invalidSymbol = 0x01#8 ∧ respByte .sinkUnavailable = 0x02#8 ∧
  respByte .illegalCommand = 0x03#8 ∧
  excCode .invalidSymbol = respByte .invalidSymbol ∧ excCode .sinkUnavailable = respByte .sinkUnavailable ∧
  excCode .illegalCommand = respByte .illegalCommand

/-- R74: the sink's answer words. -/
def Obligations.SinkAnswerWordsAreRead : Prop :=
  (∀ n : Word, capAnswerOf (1#1 ++ n) = .ok n ∧ capAnswerOf (0#1 ++ n) = .fail) ∧
  wrAnswerOf 1#1 = .ok ∧ wrAnswerOf 0#1 = .fail

/-- R52: a sample's low byte goes first, and the stream's bytes are those of its samples in order. -/
def Obligations.SamplesAreSerialisedLittleEndian : Prop :=
  (∀ s : Sample, sampleBytes s = [s.extractLsb' 0 8, s.extractLsb' 8 8]) ∧
  (∀ xs ys : List Sample, streamBytes (xs ++ ys) = streamBytes xs ++ streamBytes ys) ∧
  streamBytes [0#16, 14357#16, 17993#16, 9642#16, BitVec.ofInt 16 (-2089)] =
    [0x00, 0x00, 0x15, 0x38, 0x49, 0x46, 0xAA, 0x25, 0xD7, 0xF7]

/-! ## Reset -/

/-- R41 and R42: what reset leaves, with `STATUS` and quiescence as R186 says. -/
def Obligations.ResetLeavesTheIdleState : Prop :=
  F64.val State.reset.phLo = some 0 ∧ F64.val State.reset.phHi = some 0 ∧
  State.reset.fLo = 0 ∧ State.reset.fHi = 0 ∧ State.reset.playing = false ∧ State.reset.seq = .rest ∧
  State.reset.tickReq = false ∧ State.reset.sinkErr = false ∧
  (∀ k : Fin 8, F64.val State.reset.levels[k] = some 0) ∧
  status State.reset = 0b0000#4 ∧ quiescent State.reset = true

/-- R186: reset between two steps gives every element of the state tuple its reset value, whatever was in progress; the
parameters, the sink stream and the commands waiting at the port stay; then the block is quiescent and `STATUS` is 0. That the
sink's scripts and counters and the other waiting inputs stay too (log 17), and that no response is left (log 16), is the
model's choice. -/
def Obligations.ResetStepRestoresEveryElement : Prop :=
  ∀ s : State, nextInput s.agents = .reset →
    ∃ s', step s = .next s' ∧
      s' = { State.reset with
        params := s.params, sink := s.sink, agents := (takeInput s).agents, response := none } ∧
      quiescent s' = true ∧ status s' = 0b0000#4

/-! ## Who writes what: rules about every step -/

/-- R132: the complete set of transitions of the state machine. Whenever a step changes `PLAYING`, it took `PLAY`, `STOP` or
`TOGGLE`, or entered `SinkUnavailable` in a `CYCLE`, or was reset. -/
def Obligations.PlayingChangesOnlyByItsWriters : Prop :=
  ∀ s s' : State, step s = .next s' → s'.playing ≠ s.playing →
    (∃ w, nextInput s.agents = .command w ∧
      ((decode w = .ok .play ∧ s'.playing = true) ∨ (decode w = .ok .stop ∧ s'.playing = false) ∨
        decode w = .ok .toggle)) ∨
    (nextInput s.agents = .controller ∧ s.seq = .head ∧ s'.playing = false ∧ s'.sinkErr = true) ∨
    (nextInput s.agents = .reset ∧ s'.playing = false)

/-- R23 and R118: the phases persist across everything but a rendering `CYCLE` and reset. Whenever a step changes a phase,
it was a `CYCLE` in `Streaming` with an active oscillator that got a capacity of at least the threshold, and the new
phases are those `RENDER` leaves; or it was reset, and both are zero. -/
def Obligations.PhasesChangeOnlyByRenderingOrReset : Prop :=
  ∀ s s' : State, step s = .next s' → (s'.phLo ≠ s.phLo ∨ s'.phHi ≠ s.phHi) →
    (nextInput s.agents = .controller ∧ s.seq = .head ∧ s.playing = true ∧ ¬(s.fLo = 0 ∧ s.fHi = 0) ∧
      ∃ n buf, nextCap s.sink = .ok n ∧ s.params.threshold ≤ n.toNat ∧
        render (machineNum) s.params s.fLo s.fHi n.toNat { lo := s.phLo, hi := s.phHi } =
          some (buf, { lo := s'.phLo, hi := s'.phHi })) ∨
    (nextInput s.agents = .reset ∧ s'.phLo = 0 ∧ s'.phHi = 0)

/-- R24: only `SELECT` (and reset) changes the frequency registers, and then to a low-group and a high-group frequency. -/
def Obligations.FrequenciesChangeOnlyBySelectOrReset : Prop :=
  ∀ s s' : State, step s = .next s' → (s'.fLo ≠ s.fLo ∨ s'.fHi ≠ s.fHi) →
    (∃ w g, nextInput s.agents = .command w ∧ decode w = .ok (.select g) ∧ lookup g = some (s'.fLo, s'.fHi) ∧
      s'.fLo ∈ [697#16, 770#16, 852#16, 941#16] ∧ s'.fHi ∈ [1209#16, 1336#16, 1477#16, 1633#16]) ∨
    (nextInput s.agents = .reset ∧ s'.fLo = 0 ∧ s'.fHi = 0)

/-- R62 and R64: the level vector is written as a whole. After any step it is the vector from before, or eight zeros, or the
result of one `DETECTALL` over the very chunk this step appended to the sink stream. -/
def Obligations.LevelsAreWrittenAsAWhole : Prop :=
  ∀ s s' : State, step s = .next s' →
    s'.levels = s.levels ∨ s'.levels = zeroLevels machineNum ∨
    (nextInput s.agents = .controller ∧
      ∃ buf, detectAll (machineNum) buf = some s'.levels ∧ s'.sink.stream = s.sink.stream ++ buf)

/-- R28: how `SEQ` moves. No command changes it; `TBEGIN` moves `REST` to `HEAD`; a controller step at `HEAD` stays there
exactly when it has written a chunk, that is, completed a render cycle; reset leaves `REST`. -/
def Obligations.SeqMovesOnlyByControllerSteps : Prop :=
  ∀ s s' : State, step s = .next s' →
    (∀ w, nextInput s.agents = .command w → s'.seq = s.seq) ∧
    (nextInput s.agents = .controller → s.seq = .rest → s'.seq = (if s.tickReq then .head else .rest)) ∧
    (nextInput s.agents = .controller → s.seq = .head →
      (s'.seq = .head ↔ s'.sink.wrAsked = s.sink.wrAsked + 1 ∧ nextWr s.sink = .ok)) ∧
    (nextInput s.agents = .reset → s'.seq = .rest)

/-- R30: `TICK` and `NOTIFY` set the latch, `TBEGIN` clears it, and no other step but reset changes it. -/
def Obligations.TickLatchIsSetByRequestsAndClearedByTbegin : Prop :=
  ∀ s s' : State, step s = .next s' →
    s'.tickReq =
      match nextInput s.agents with
      | .command w => if decode w = .ok .tick ∨ decode w = .ok .notify then true else s.tickReq
      | .controller => if s.seq = .rest then false else s.tickReq
      | .reset => false

/-- R31: the sticky bit is set by the `SinkUnavailable` entry only, in a step whose query, or whose write, the sink answered
`Fail`, and cleared by `PLAY`, by a `TOGGLE` that turns playing on, and by reset only. -/
def Obligations.SinkErrIsStickyUntilPlayingIsTurnedOn : Prop :=
  ∀ s s' : State, step s = .next s' → s'.sinkErr ≠ s.sinkErr →
    (s'.sinkErr = true ∧ nextInput s.agents = .controller ∧ s.seq = .head ∧ s'.seq = .rest ∧
      (nextCap s.sink = .fail ∨ (nextWr s.sink = .fail ∧ s'.sink.wrAsked = s.sink.wrAsked + 1))) ∨
    (s'.sinkErr = false ∧
      ((∃ w, nextInput s.agents = .command w ∧
          (decode w = .ok .play ∨ (decode w = .ok .toggle ∧ s.playing = false))) ∨
        nextInput s.agents = .reset))

/-- R72: every command word that is taken ends with one response, one of the four codes but never 0x02, with levels for `POLL`
and for no other. That a controller step and reset leave none in the field, which holds what the last step sent, is the model's
choice (log 16). -/
def Obligations.EveryCommandIsAnsweredOnce : Prop :=
  respByte .ok = 0x00#8 ∧ respByte .invalidSymbol = 0x01#8 ∧ respByte .sinkUnavailable = 0x02#8 ∧
  respByte .illegalCommand = 0x03#8 ∧
  ∀ s s' : State, step s = .next s' →
    (∀ w, nextInput s.agents = .command w →
      ∃ r, s'.response = some r ∧ r.code ≠ .sinkUnavailable ∧ (r.levels.isSome = true ↔ decode w = .ok .poll)) ∧
    ((nextInput s.agents = .controller ∨ nextInput s.agents = .reset) → s'.response = none)

/-- R58 and R60: the sink stream only grows, by whole chunks. A step that changes it is a controller step whose write was
answered `Ok`, and it appends exactly the samples of one `RENDER` of the capacity the sink reported, which is at least the
threshold. -/
def Obligations.StreamGrowsByWholeRenderedChunks : Prop :=
  ∀ s s' : State, step s = .next s' → s'.sink.stream ≠ s.sink.stream →
    nextInput s.agents = .controller ∧ nextWr s.sink = .ok ∧
    ∃ n buf ph, nextCap s.sink = .ok n ∧ s.params.threshold ≤ n.toNat ∧ buf.length = n.toNat ∧
      render (machineNum) s.params s.fLo s.fHi n.toNat { lo := s.phLo, hi := s.phHi } = some (buf, ph) ∧
      s'.sink.stream = s.sink.stream ++ buf

/-- R33 and R189: no step changes a parameter. -/
def Obligations.NoStepChangesAParameter : Prop :=
  ∀ s s' : State, step s = .next s' → s'.params = s.params

/-- The level vector is an output only (R131, R139): what a step does to everything but the level vector and the response
does not depend on the levels held before it. -/
def Obligations.LevelsInfluenceNothingElse : Prop :=
  ∀ (s s' : State) (v : Vector F64 8), step s = .next s' →
    ∃ t', step { s with levels := v } = .next t' ∧
      { t' with levels := s'.levels, response := s'.response } = s' ∧
      (t'.levels = s'.levels ∨ (t'.levels = v ∧ s'.levels = s.levels)) ∧
      t'.response.map Response.code = s'.response.map Response.code

/-! ## The controller's steps -/

/-- R140: `TBEGIN` on the controller's turn in `REST` with a tick pending. R141: in `HEAD` its step is `CYCLE`, whether or not a
tick is pending (R65). R149: the block is quiescent exactly in `REST` with none pending, and then no controller step is
enabled; that a turn of the controller then only takes the input is the model's choice (log 15). -/
def Obligations.ControllerTakesTheEnabledStep : Prop :=
  ∀ s : State,
    (quiescent s = true ↔ s.seq = .rest ∧ s.tickReq = false) ∧
    (nextInput s.agents = .controller →
      (s.seq = .rest → s.tickReq = true → step s = .next { takeInput s with tickReq := false, seq := .head }) ∧
      (quiescent s = true → step s = .next (takeInput s)) ∧
      (s.seq = .head → step s = cycle machineNum (takeInput s)))

/-- R142: a tick in `Idle` is `TBEGIN` and exactly one `CYCLE`; it zeroes the level vector, asks the sink nothing, writes it
nothing and leaves the phases alone; and a second such tick changes nothing more. -/
def Obligations.IdleTickOnlyZeroesTheLevels : Prop :=
  ∀ (R : Type) (N : Num R) (s : State R), s.playing = false → s.seq = .rest → s.tickReq = true →
    controllerTurn N s = .next { s with tickReq := false, seq := .head } ∧
    controllerTurn N { s with tickReq := false, seq := .head } =
      .next { s with tickReq := false, levels := zeroLevels N } ∧
    controllerTurn N { s with levels := zeroLevels N, tickReq := false, seq := .head } =
      .next { s with tickReq := false, levels := zeroLevels N }

/-- R141, R146 and R168: one pass of the pull loop in any numerics record, branch by branch. Not playing, or both frequencies 0:
the level vector is zeroed and the tick ends, the sink is not asked. A failed query: the entry of `SinkUnavailable`, the phases
untouched. A capacity below the threshold: the tick ends, the level vector stays. Otherwise exactly `n` samples are rendered,
which advances the phases, and written: on `Ok` the level vector is `DETECTALL` of that very buffer and `SEQ` stays `HEAD`; on
`Fail` the entry, with the phases advanced and nothing in the stream. Where a `wrap` never ends the model stops with
the named fault, which is the model's own (log 6).

R56, R57, R58: what the sink answers. The answers are free: the next scripted one where there is one, else a free value; that
form, and the counters, are the model's choice (log 11). An answer to a query takes its script on by one, counts one query and
leaves the stream and the answers to writes. -/
def Obligations.CycleIsOnePassOfThePullLoop : Prop :=
  (∀ k : SinkPort,
    (∀ a r, k.capScript = a :: r → nextCap k = a ∧ capDone k = { k with capScript := r, capAsked := k.capAsked + 1 }) ∧
    (k.capScript = [] →
      nextCap k = capAnswerOf (Config.sinkCapWord k.capAsked) ∧ capDone k = { k with capAsked := k.capAsked + 1 }) ∧
    (∀ a r, k.wrScript = a :: r → nextWr k = a) ∧
    (k.wrScript = [] → nextWr k = wrAnswerOf (Config.sinkWrBit k.wrAsked))) ∧
  ∀ (R : Type) (N : Num R) (s : State R),
    (s.playing = false ∨ (s.fLo = 0 ∧ s.fHi = 0) →
      cycle N s = .next { s with levels := zeroLevels N, seq := .rest }) ∧
    (s.playing = true → ¬(s.fLo = 0 ∧ s.fHi = 0) → nextCap s.sink = .fail →
      cycle N s = .next { s with
        sink := capDone s.sink, playing := false, levels := zeroLevels N, sinkErr := true, seq := .rest }) ∧
    (∀ n, s.playing = true → ¬(s.fLo = 0 ∧ s.fHi = 0) → nextCap s.sink = .ok n → n.toNat < s.params.threshold →
      cycle N s = .next { s with sink := capDone s.sink, seq := .rest }) ∧
    (∀ n, s.playing = true → ¬(s.fLo = 0 ∧ s.fHi = 0) → nextCap s.sink = .ok n → s.params.threshold ≤ n.toNat →
      1 ≤ n.toNat →
      (render N s.params s.fLo s.fHi n.toNat { lo := s.phLo, hi := s.phHi } = none →
        cycle N s = .fault .phaseWrapDiverges) ∧
      (∀ buf ph, render N s.params s.fLo s.fHi n.toNat { lo := s.phLo, hi := s.phHi } = some (buf, ph) →
        buf.length = n.toNat ∧
        (nextWr s.sink = .ok →
          ∃ v, detectAll N buf = some v ∧
            cycle N s = .next { s with
              phLo := ph.lo, phHi := ph.hi, levels := v
              sink := { capDone s.sink with
                wrScript := s.sink.wrScript.tail, wrAsked := s.sink.wrAsked + 1, stream := s.sink.stream ++ buf } }) ∧
        (nextWr s.sink = .fail →
          cycle N s = .next { s with
            phLo := ph.lo, phHi := ph.hi
            playing := false, levels := zeroLevels N, sinkErr := true, seq := .rest
            sink := { capDone s.sink with wrScript := s.sink.wrScript.tail, wrAsked := s.sink.wrAsked + 1 } })))

/-- R93 (`refuse`): a `CYCLE` that would detect an empty block, which only an illegal `THRESHOLD = 0` allows, is refused. -/
def Obligations.EmptyBlockIsRefused : Prop :=
  ∀ (R : Type) (N : Num R),
    (∀ rate f : Nat, detect N [] rate f = none ∧ detectAll N [] = none) ∧
    ∀ s : State R, s.playing = true → ¬(s.fLo = 0 ∧ s.fHi = 0) → nextCap s.sink = .ok 0 →
      s.params.threshold = 0 → nextWr s.sink = .ok → cycle N s = .refused .emptyBlock

/-- R168 and R169: the entry of `SinkUnavailable`, and recovery from it: `PLAY` and `TOGGLE` turn playing on again and clear
`SINK_ERR`, with the frequencies and phases as the failed cycle left them. -/
def Obligations.SinkUnavailableEntryAndRecovery : Prop :=
  (∀ (R : Type) (N : Num R) (k : Fin 8), (zeroLevels N)[k] = N.zero) ∧
  (∀ (R : Type) (N : Num R) (s : State R),
    raise N .sinkUnavailable s =
      { s with playing := false, levels := zeroLevels N, sinkErr := true, seq := .rest }) ∧
  ∀ (s : State) (i : Instr), i = .play ∨ i = .toggle →
    exec i (raise machineNum .sinkUnavailable s) =
      .next { s with
        playing := true, levels := zeroLevels machineNum, sinkErr := false, seq := .rest
        response := some { code := .ok, levels := none } }

/-! ## The generator -/

/-- R117: `RENDER(a)` followed by `RENDER(b)` gives, concatenated, the samples of `RENDER(a + b)` and the same phases, in every
numerics record and from every start state. -/
def Obligations.RenderingTwiceIsRenderingOnce : Prop :=
  ∀ (R : Type) (N : Num R) (p : Params) (fLo fHi : Word) (a b : Nat) (ph : Phases R),
    render N p fLo fHi (a + b) ph =
      match render N p fLo fHi a ph with
      | none => none
      | some (xs, ph') =>
        match render N p fLo fHi b ph' with
        | none => none
        | some (ys, ph'') => some (xs ++ ys, ph'')

/-- R111: `RENDER(n)` gives exactly `n` samples. Sample `i` is computed from the phases that `i` advances have left, before its
own advance: the truncated sum of `round(sin(phase) · VOLUME)` over the oscillators whose frequency is not 0; then each phase
advances to `wrap(PH + INCR(F))`. An inactive one keeps its value, as R112 and R21 say, where R111 writes `wrap(PH + INCR(0))`:
the model's reading (DEDUCED, log 7). -/
def Obligations.EachSampleComesFromThePhasesBeforeIt : Prop :=
  ∀ (R : Type) (N : Num R) (p : Params) (fLo fHi : Word) (n : Nat) (ph ph' : Phases R) (xs : List Sample),
    render N p fLo fHi n ph = some (xs, ph') →
      xs.length = n ∧ (n = 0 → ph' = ph) ∧
      ∀ i, i < n → ∃ ys zs q r,
        render N p fLo fHi i ph = some (ys, q) ∧ render N p fLo fHi (i + 1) ph = some (zs, r) ∧
        xs[i]? = some (trunc16 p.ovf
          ((if fLo = 0 then 0 else N.round (N.mul (N.sin q.lo) (N.ofInt p.volume))) +
           (if fHi = 0 then 0 else N.round (N.mul (N.sin q.hi) (N.ofInt p.volume))))) ∧
        (if fLo = 0 then r.lo = q.lo
          else wrap N (N.add q.lo (N.div (N.mul N.twoPi (N.ofInt fLo.toNat)) (N.ofInt 8000))) = some r.lo) ∧
        (if fHi = 0 then r.hi = q.hi
          else wrap N (N.add q.hi (N.div (N.mul N.twoPi (N.ofInt fHi.toNat)) (N.ofInt 8000))) = some r.hi)

/-- R112, R21 and R119: an inactive oscillator's phase keeps its value through any `RENDER`, and with both inactive `RENDER(n)`
is `n` zeros and leaves both phases. -/
def Obligations.InactiveOscillatorsDoNotAdvance : Prop :=
  ∀ (R : Type) (N : Num R) (p : Params) (n : Nat) (ph : Phases R),
    (∀ f q xs, render N p 0 f n ph = some (xs, q) → q.lo = ph.lo) ∧
    (∀ f q xs, render N p f 0 n ph = some (xs, q) → q.hi = ph.hi) ∧
    render N p 0 0 n ph = some (List.replicate n 0, ph)

/-- R112, R113 and R111, in every numerics record: an active oscillator's phase after one sample is `wrap(PH + (2π·f)/FS)`. What
`wrap` gives is what the loop of R113 ends with, after however many passes: the start less some number of whole turns, taken
away one at a time, each from a value not below 2π, and below 2π itself; it gives none just where the loop never ends (log 6).
With NUM-WRAP a phase in `[0, 2π)` with an increment not below zero advances to a phase in `[0, 2π)`. -/
def Obligations.PhaseAdvancesByItsIncrementAndWraps : Prop :=
  ∀ (R : Type) (N : Num R),
    (∀ (f : Word) (ph : R), f ≠ 0 →
      advance N f ph = wrap N (N.add ph (N.div (N.mul N.twoPi (N.ofInt f.toNat)) (N.ofInt 8000)))) ∧
    (∀ p q, wrap N p = some q ↔ WrapsTo N p q) ∧
    (∀ p q, wrap N p = some q ↔
      N.lt q N.twoPi = true ∧ ∃ k, q = (fun x => N.sub x N.twoPi)^[k] p ∧
        ∀ j, j < k → N.lt ((fun x => N.sub x N.twoPi)^[j] p) N.twoPi = false) ∧
    (NumWrap N → ∀ (f : Word) (ph : R), N.inTurn ph = true →
      N.ge (N.div (N.mul N.twoPi (N.ofInt f.toNat)) (N.ofInt 8000)) N.zero = true →
      ∃ q, advance N f ph = some q ∧ N.inTurn q = true)

/-- R113: in `IDEAL`, `wrap(p)` is `p` modulo 2π; and the passes that `wrap` tries first end its loop, from any start, wherever it
ends at all. -/
def Obligations.IdealWrapIsModuloTwoPi : Prop :=
  (∀ p : ℝ, 0 ≤ p → wrap ideal p = some (p - 2 * Real.pi * (⌊p / (2 * Real.pi)⌋ : ℝ))) ∧
  ∀ p q : ℝ, WrapsTo ideal p q ↔ wrapLoop ideal (wrapPasses ideal p) p = some q

/-- R115: with `WRAP` the sample is the low 16 bits of the sum, with `SAT` the sum clamped, and inside −32768..32767 both are the
sum itself. -/
def Obligations.TruncationWrapsOrSaturates : Prop :=
  ∀ t : Int,
    (trunc16 .wrap t).toInt = t.bmod (2 ^ 16) ∧
    (trunc16 .sat t).toInt = max (-32768) (min 32767 t) ∧
    (-32768 ≤ t → t ≤ 32767 → (trunc16 .wrap t).toInt = t ∧ (trunc16 .sat t).toInt = t)

/-- R116, D8: under NUM-RANGE and `VOLUME ≤ 16383` no sum leaves the range of a sample, so the sample is the sum itself and does
not depend on `OVF`. -/
def Obligations.NoOverflowUpToHalfVolume : Prop :=
  ∀ (R : Type) (N : Num R) (V : Nat) (o : Ovf) (fLo fHi : Word) (ph : Phases R), NumRange N → V ≤ 16383 →
    N.inTurn ph.lo = true → N.inTurn ph.hi = true →
    (trunc16 o (sampleSum N V fLo fHi ph)).toInt = sampleSum N V fLo fHi ph ∧
    -(2 * (V : Int)) ≤ sampleSum N V fLo fHi ph ∧ sampleSum N V fLo fHi ph ≤ 2 * (V : Int)

/-- R22, R113, D30: in `F64`, whatever the trigonometric functions are, the passes that `wrap` tries first end its loop, from any
start, wherever it ends at all, so that it is computed; and from phases in `[0, 2π)`, for every pair of 16-bit frequencies, those at or above
`FS` among them, `RENDER` of any count completes and leaves phases in `[0, 2π)`. -/
def Obligations.RenderCompletesAndKeepsPhasesInTurn : Prop :=
  ∀ t : Trig,
    (∀ p q : F64, WrapsTo (F64.num t) p q ↔ wrapLoop (F64.num t) (wrapPasses (F64.num t) p) p = some q) ∧
    ∀ (p : Params) (fLo fHi : Word) (n : Nat) (ph : Phases F64),
      (F64.num t).inTurn ph.lo = true → (F64.num t).inTurn ph.hi = true →
      ∃ xs q, render (F64.num t) p fLo fHi n ph = some (xs, q) ∧
        (F64.num t).inTurn q.lo = true ∧ (F64.num t).inTurn q.hi = true

/-! ## The detector -/

/-- R95: an all-zero block of at least one sample is detected as 0 at every frequency: exactly in `IDEAL`, and numerically in any
record with NUM-ZERO and with products of a zero on the left zero (log 8), and in `F64`, where `sin`, `cos` and the coefficient at
the bin's angle are finite. At a rate of 0 the angle in `IDEAL` is the model's choice (log 10). -/
def Obligations.SilenceIsDetectedAsZero : Prop :=
  (∀ n rate f : Nat, 1 ≤ n → detect ideal (List.replicate n 0) rate f = some 0) ∧
  (∀ (R : Type) (N : Num R) (val : R → Option ℝ) (n rate f : Nat), NumZero N val → MulZeroLeft N val → 1 ≤ n →
    (val (N.sin (angle N rate f))).isSome = true → (val (N.cos (angle N rate f))).isSome = true →
    (val (coeff N (angle N rate f))).isSome = true → val (N.div (N.ofInt n) (N.ofInt 2)) ≠ some 0 →
    ∃ m, detect N (List.replicate n 0) rate f = some m ∧ val m = some 0) ∧
  ∀ (t : Trig) (n rate f : Nat), 1 ≤ n →
    F64.finite (t.sin (angle (F64.num t) rate f)) = true → F64.finite (t.cos (angle (F64.num t) rate f)) = true →
    F64.finite (coeff (F64.num t) (angle (F64.num t) rate f)) = true →
    ∃ m, detect (F64.num t) (List.replicate n 0) rate f = some m ∧ F64.val m = some 0

/-- R98, derived from R91: in `IDEAL` a single sample `a` is detected as `2·|a|` at every frequency, and at frequency 0 a block is
detected as twice the size of its mean. At a rate of 0 the angle is the model's choice (log 10). -/
def Obligations.IdealDetectorCornerCases : Prop :=
  (∀ (a : Sample) (rate f : Nat), detect ideal [a] rate f = some (2 * |(a.toInt : ℝ)|)) ∧
  (∀ (xs : List Sample) (rate : Nat), xs ≠ [] →
    detect ideal xs rate 0 = some (|((xs.map BitVec.toInt).sum : ℝ)| / ((xs.length : ℝ) / 2)))

/-- R91 and R96 made exact: in `IDEAL` the result is the size of the block's discrete Fourier sum at the bin's angle, divided by
`N/2`. The recurrence and the closing formula of `DETECT` compute just that. At a rate of 0 the angle is the model's choice
(log 10). -/
def Obligations.IdealDetectorIsTheFourierMagnitude : Prop :=
  ∀ (xs : List Sample) (rate f : Nat), xs ≠ [] →
    detect ideal xs rate f =
      some (Real.sqrt
        ((∑ i : Fin xs.length, ((xs.get i).toInt : ℝ) * Real.cos (2 * Real.pi * f / rate * i)) ^ 2 +
         (∑ i : Fin xs.length, ((xs.get i).toInt : ℝ) * Real.sin (2 * Real.pi * f / rate * i)) ^ 2) /
        ((xs.length : ℝ) / 2))

/-- R105, R106 and R38: `DETECTALL` gives, in canonical order, what `DETECT` gives at each table frequency over the same block, from
the lane's constants. -/
def Obligations.DetectAllRunsEveryLaneOverTheBlock : Prop :=
  ∀ (R : Type) (N : Num R) (xs : List Sample), xs ≠ [] →
    ∃ v, detectAll N xs = some v ∧
      ∀ k : Fin 8, detect N xs 8000 freqTable[k].toNat = some v[k] ∧
        v[k] = magnitude N (laneW N k) xs.length
          (goertzel N (laneCoeff N k) xs { q1 := N.zero, q2 := N.zero }) ∧
        laneCoeff N k = N.mul (N.ofInt 2) (laneCos N k)

/-! ## The numerics records -/

/-- R10: `IDEAL` has all the named properties (read by log 8 and log 26), and a product with a zero on the left is zero in it. -/
def Obligations.IdealHasTheNamedProperties : Prop :=
  NumZero ideal idealVal ∧ MulZeroLeft ideal idealVal ∧ NumTrig ideal idealVal ∧ NumRange ideal ∧ NumWrap ideal

/-- R9: in `F64`, `add`, `sub`, `mul`, `div` and `sqrt` are correctly rounded, to nearest, ties to even. That a result past the largest
finite number is an infinity is taken from IEEE 754 (PRESUMED, log 23). -/
def Obligations.BinarySixtyFourIsCorrectlyRounded : Prop :=
  ∀ a b : F64, F64.finite a = true → F64.finite b = true →
    F64.Rounds (F64.toReal a + F64.toReal b) (F64.add a b) ∧
    F64.Rounds (F64.toReal a - F64.toReal b) (F64.sub a b) ∧
    F64.Rounds (F64.toReal a * F64.toReal b) (F64.mul a b) ∧
    (F64.toReal b ≠ 0 → F64.Rounds (F64.toReal a / F64.toReal b) (F64.div a b)) ∧
    (0 ≤ F64.toReal a → F64.Rounds (Real.sqrt (F64.toReal a)) (F64.sqrt a))

/-- R9: the other fields of `F64`: `ofInt` is exact below `2^53`, `lt` is the ordered comparison, `round` is to nearest with ties away
from zero, and `twoPi` is the binary64 number nearest 2π. -/
def Obligations.BinarySixtyFourConversionsAndOrder : Prop :=
  (∀ n : Int, n.natAbs < 2 ^ 53 → F64.val (F64.ofInt n) = some (n : ℝ)) ∧
  (∀ a b : F64, F64.finite a = true → F64.finite b = true →
    (F64.lt a b = true ↔ F64.toReal a < F64.toReal b)) ∧
  (∀ a b : F64, (F64.isNaN a = true ∨ F64.isNaN b = true) → F64.lt a b = false) ∧
  (∀ a : F64, F64.finite a = true → F64.round a = idealRound (F64.toReal a)) ∧
  F64.twoPi = 0x401921FB54442D18#64 ∧ F64.Rounds (2 * Real.pi) F64.twoPi

/-! ## The invariant, and that nothing stops -/

/-- The reset state meets the invariant (R20, R22, R24, R35). Its `VOLUME` is the model's choice (log 2). -/
def Obligations.ResetMeetsTheInvariant : Prop := Inv State.reset

/-- R22, R24, R35: every step keeps the invariant: phases in `[0, 2π)`, frequencies that a glyph can bring about, levels not
negative, parameters legal, `SINK_ERR` only in `Idle`. -/
def Obligations.EveryStepKeepsTheInvariant : Prop :=
  ∀ s s' : State, Inv s → step s = .next s' → Inv s'

/-- R68, R164: from a state that meets the invariant every step completes, whatever the agents and the sink choose: no fault and
no refusal. -/
def Obligations.NoLegalStateStops : Prop :=
  ∀ s : State, Inv s → ∃ s', step s = .next s'

/-- R196, R144: a tick ends when the sink keeps its duty S2: if its `i`-th coming answer is `Fail` or below the threshold, at most
`i + 1` `CYCLE`s return `SEQ` to `REST`, from any state that meets the invariant. -/
def Obligations.ATickEndsWhenTheSinkRunsFull : Prop :=
  ∀ (t : Trig) (s : State) (i : Nat), Inv s → endsTick s.params.threshold (capAt s.sink i) = true →
    ∃ s', runTick (F64.num t) (i + 1) s = .next s' ∧ s'.seq = .rest

/-! ## The detector in every record -/

/-- R91, in every numerics record: the recurrence from zero over the samples in index order, and the closing formula, every
operation in the order written. -/
def Obligations.DetectIsTheGoertzelRecurrence : Prop :=
  ∀ (R : Type) (N : Num R) (xs : List Sample) (rate f : Nat), xs ≠ [] →
    ∃ q1 q2 : Nat → R,
      q1 0 = N.ofInt 0 ∧ q2 0 = N.ofInt 0 ∧
      (∀ i x, xs[i]? = some x →
        q1 (i + 1) =
          N.add
            (N.sub
              (N.mul (N.mul (N.ofInt 2) (N.cos (N.div (N.mul N.twoPi (N.ofInt f)) (N.ofInt rate)))) (q1 i)) (q2 i))
            (N.ofInt x.toInt) ∧
        q2 (i + 1) = q1 i) ∧
      ∀ w half re im : R,
        w = N.div (N.mul N.twoPi (N.ofInt f)) (N.ofInt rate) →
        half = N.div (N.ofInt xs.length) (N.ofInt 2) →
        re = N.div (N.sub (q1 xs.length) (N.mul (q2 xs.length) (N.cos w))) half →
        im = N.div (N.mul (q2 xs.length) (N.sin w)) half →
        detect N xs rate f = some (N.sqrt (N.add (N.mul re re) (N.mul im im)))
end

