-- ==== Sys2Proof/Laws/State.lean ====
section
/-! SUPPORT. One lemma per field for every shared update of the state: what the update makes of the field. -/

namespace Sys2Proof.Machine

variable {R : Type} (s : State R)

/-! ### respond -/

@[simp] theorem respond_phLo (c : RespCode) : (respond c s).phLo = s.phLo := rfl
@[simp] theorem respond_phHi (c : RespCode) : (respond c s).phHi = s.phHi := rfl
@[simp] theorem respond_fLo (c : RespCode) : (respond c s).fLo = s.fLo := rfl
@[simp] theorem respond_fHi (c : RespCode) : (respond c s).fHi = s.fHi := rfl
@[simp] theorem respond_playing (c : RespCode) : (respond c s).playing = s.playing := rfl
@[simp] theorem respond_seq (c : RespCode) : (respond c s).seq = s.seq := rfl
@[simp] theorem respond_tickReq (c : RespCode) : (respond c s).tickReq = s.tickReq := rfl
@[simp] theorem respond_sinkErr (c : RespCode) : (respond c s).sinkErr = s.sinkErr := rfl
@[simp] theorem respond_levels (c : RespCode) : (respond c s).levels = s.levels := rfl
@[simp] theorem respond_params (c : RespCode) : (respond c s).params = s.params := rfl
@[simp] theorem respond_sink (c : RespCode) : (respond c s).sink = s.sink := rfl
@[simp] theorem respond_agents (c : RespCode) : (respond c s).agents = s.agents := rfl
@[simp] theorem respond_response (c : RespCode) : (respond c s).response = some { code := c, levels := none } := rfl

/-! ### respondLevels -/

@[simp] theorem respondLevels_phLo : (respondLevels s).phLo = s.phLo := rfl
@[simp] theorem respondLevels_phHi : (respondLevels s).phHi = s.phHi := rfl
@[simp] theorem respondLevels_fLo : (respondLevels s).fLo = s.fLo := rfl
@[simp] theorem respondLevels_fHi : (respondLevels s).fHi = s.fHi := rfl
@[simp] theorem respondLevels_playing : (respondLevels s).playing = s.playing := rfl
@[simp] theorem respondLevels_seq : (respondLevels s).seq = s.seq := rfl
@[simp] theorem respondLevels_tickReq : (respondLevels s).tickReq = s.tickReq := rfl
@[simp] theorem respondLevels_sinkErr : (respondLevels s).sinkErr = s.sinkErr := rfl
@[simp] theorem respondLevels_levels : (respondLevels s).levels = s.levels := rfl
@[simp] theorem respondLevels_params : (respondLevels s).params = s.params := rfl
@[simp] theorem respondLevels_sink : (respondLevels s).sink = s.sink := rfl
@[simp] theorem respondLevels_agents : (respondLevels s).agents = s.agents := rfl
@[simp] theorem respondLevels_response : (respondLevels s).response = some { code := .ok, levels := some s.levels } := rfl

/-! ### turnOn -/

@[simp] theorem turnOn_phLo : (turnOn s).phLo = s.phLo := rfl
@[simp] theorem turnOn_phHi : (turnOn s).phHi = s.phHi := rfl
@[simp] theorem turnOn_fLo : (turnOn s).fLo = s.fLo := rfl
@[simp] theorem turnOn_fHi : (turnOn s).fHi = s.fHi := rfl
@[simp] theorem turnOn_playing : (turnOn s).playing = true := rfl
@[simp] theorem turnOn_seq : (turnOn s).seq = s.seq := rfl
@[simp] theorem turnOn_tickReq : (turnOn s).tickReq = s.tickReq := rfl
@[simp] theorem turnOn_sinkErr : (turnOn s).sinkErr = false := rfl
@[simp] theorem turnOn_levels : (turnOn s).levels = s.levels := rfl
@[simp] theorem turnOn_params : (turnOn s).params = s.params := rfl
@[simp] theorem turnOn_sink : (turnOn s).sink = s.sink := rfl
@[simp] theorem turnOn_agents : (turnOn s).agents = s.agents := rfl
@[simp] theorem turnOn_response : (turnOn s).response = s.response := rfl

/-! ### turnOff -/

@[simp] theorem turnOff_phLo : (turnOff s).phLo = s.phLo := rfl
@[simp] theorem turnOff_phHi : (turnOff s).phHi = s.phHi := rfl
@[simp] theorem turnOff_fLo : (turnOff s).fLo = s.fLo := rfl
@[simp] theorem turnOff_fHi : (turnOff s).fHi = s.fHi := rfl
@[simp] theorem turnOff_playing : (turnOff s).playing = false := rfl
@[simp] theorem turnOff_seq : (turnOff s).seq = s.seq := rfl
@[simp] theorem turnOff_tickReq : (turnOff s).tickReq = s.tickReq := rfl
@[simp] theorem turnOff_sinkErr : (turnOff s).sinkErr = s.sinkErr := rfl
@[simp] theorem turnOff_levels : (turnOff s).levels = s.levels := rfl
@[simp] theorem turnOff_params : (turnOff s).params = s.params := rfl
@[simp] theorem turnOff_sink : (turnOff s).sink = s.sink := rfl
@[simp] theorem turnOff_agents : (turnOff s).agents = s.agents := rfl
@[simp] theorem turnOff_response : (turnOff s).response = s.response := rfl

/-! ### requestTick -/

@[simp] theorem requestTick_phLo : (requestTick s).phLo = s.phLo := rfl
@[simp] theorem requestTick_phHi : (requestTick s).phHi = s.phHi := rfl
@[simp] theorem requestTick_fLo : (requestTick s).fLo = s.fLo := rfl
@[simp] theorem requestTick_fHi : (requestTick s).fHi = s.fHi := rfl
@[simp] theorem requestTick_playing : (requestTick s).playing = s.playing := rfl
@[simp] theorem requestTick_seq : (requestTick s).seq = s.seq := rfl
@[simp] theorem requestTick_tickReq : (requestTick s).tickReq = true := rfl
@[simp] theorem requestTick_sinkErr : (requestTick s).sinkErr = s.sinkErr := rfl
@[simp] theorem requestTick_levels : (requestTick s).levels = s.levels := rfl
@[simp] theorem requestTick_params : (requestTick s).params = s.params := rfl
@[simp] theorem requestTick_sink : (requestTick s).sink = s.sink := rfl
@[simp] theorem requestTick_agents : (requestTick s).agents = s.agents := rfl
@[simp] theorem requestTick_response : (requestTick s).response = s.response := rfl

/-! ### setFreq -/

@[simp] theorem setFreq_phLo (lo hi : Word) : (setFreq lo hi s).phLo = s.phLo := rfl
@[simp] theorem setFreq_phHi (lo hi : Word) : (setFreq lo hi s).phHi = s.phHi := rfl
@[simp] theorem setFreq_fLo (lo hi : Word) : (setFreq lo hi s).fLo = lo := rfl
@[simp] theorem setFreq_fHi (lo hi : Word) : (setFreq lo hi s).fHi = hi := rfl
@[simp] theorem setFreq_playing (lo hi : Word) : (setFreq lo hi s).playing = s.playing := rfl
@[simp] theorem setFreq_seq (lo hi : Word) : (setFreq lo hi s).seq = s.seq := rfl
@[simp] theorem setFreq_tickReq (lo hi : Word) : (setFreq lo hi s).tickReq = s.tickReq := rfl
@[simp] theorem setFreq_sinkErr (lo hi : Word) : (setFreq lo hi s).sinkErr = s.sinkErr := rfl
@[simp] theorem setFreq_levels (lo hi : Word) : (setFreq lo hi s).levels = s.levels := rfl
@[simp] theorem setFreq_params (lo hi : Word) : (setFreq lo hi s).params = s.params := rfl
@[simp] theorem setFreq_sink (lo hi : Word) : (setFreq lo hi s).sink = s.sink := rfl
@[simp] theorem setFreq_agents (lo hi : Word) : (setFreq lo hi s).agents = s.agents := rfl
@[simp] theorem setFreq_response (lo hi : Word) : (setFreq lo hi s).response = s.response := rfl

/-! ### setLevels -/

@[simp] theorem setLevels_phLo (v : Vector R 8) : (setLevels v s).phLo = s.phLo := rfl
@[simp] theorem setLevels_phHi (v : Vector R 8) : (setLevels v s).phHi = s.phHi := rfl
@[simp] theorem setLevels_fLo (v : Vector R 8) : (setLevels v s).fLo = s.fLo := rfl
@[simp] theorem setLevels_fHi (v : Vector R 8) : (setLevels v s).fHi = s.fHi := rfl
@[simp] theorem setLevels_playing (v : Vector R 8) : (setLevels v s).playing = s.playing := rfl
@[simp] theorem setLevels_seq (v : Vector R 8) : (setLevels v s).seq = s.seq := rfl
@[simp] theorem setLevels_tickReq (v : Vector R 8) : (setLevels v s).tickReq = s.tickReq := rfl
@[simp] theorem setLevels_sinkErr (v : Vector R 8) : (setLevels v s).sinkErr = s.sinkErr := rfl
@[simp] theorem setLevels_levels (v : Vector R 8) : (setLevels v s).levels = v := rfl
@[simp] theorem setLevels_params (v : Vector R 8) : (setLevels v s).params = s.params := rfl
@[simp] theorem setLevels_sink (v : Vector R 8) : (setLevels v s).sink = s.sink := rfl
@[simp] theorem setLevels_agents (v : Vector R 8) : (setLevels v s).agents = s.agents := rfl
@[simp] theorem setLevels_response (v : Vector R 8) : (setLevels v s).response = s.response := rfl

/-! ### setSeq -/

@[simp] theorem setSeq_phLo (q : Seq) : (setSeq q s).phLo = s.phLo := rfl
@[simp] theorem setSeq_phHi (q : Seq) : (setSeq q s).phHi = s.phHi := rfl
@[simp] theorem setSeq_fLo (q : Seq) : (setSeq q s).fLo = s.fLo := rfl
@[simp] theorem setSeq_fHi (q : Seq) : (setSeq q s).fHi = s.fHi := rfl
@[simp] theorem setSeq_playing (q : Seq) : (setSeq q s).playing = s.playing := rfl
@[simp] theorem setSeq_seq (q : Seq) : (setSeq q s).seq = q := rfl
@[simp] theorem setSeq_tickReq (q : Seq) : (setSeq q s).tickReq = s.tickReq := rfl
@[simp] theorem setSeq_sinkErr (q : Seq) : (setSeq q s).sinkErr = s.sinkErr := rfl
@[simp] theorem setSeq_levels (q : Seq) : (setSeq q s).levels = s.levels := rfl
@[simp] theorem setSeq_params (q : Seq) : (setSeq q s).params = s.params := rfl
@[simp] theorem setSeq_sink (q : Seq) : (setSeq q s).sink = s.sink := rfl
@[simp] theorem setSeq_agents (q : Seq) : (setSeq q s).agents = s.agents := rfl
@[simp] theorem setSeq_response (q : Seq) : (setSeq q s).response = s.response := rfl

/-! ### setPhases -/

@[simp] theorem setPhases_phLo (lo hi : R) : (setPhases lo hi s).phLo = lo := rfl
@[simp] theorem setPhases_phHi (lo hi : R) : (setPhases lo hi s).phHi = hi := rfl
@[simp] theorem setPhases_fLo (lo hi : R) : (setPhases lo hi s).fLo = s.fLo := rfl
@[simp] theorem setPhases_fHi (lo hi : R) : (setPhases lo hi s).fHi = s.fHi := rfl
@[simp] theorem setPhases_playing (lo hi : R) : (setPhases lo hi s).playing = s.playing := rfl
@[simp] theorem setPhases_seq (lo hi : R) : (setPhases lo hi s).seq = s.seq := rfl
@[simp] theorem setPhases_tickReq (lo hi : R) : (setPhases lo hi s).tickReq = s.tickReq := rfl
@[simp] theorem setPhases_sinkErr (lo hi : R) : (setPhases lo hi s).sinkErr = s.sinkErr := rfl
@[simp] theorem setPhases_levels (lo hi : R) : (setPhases lo hi s).levels = s.levels := rfl
@[simp] theorem setPhases_params (lo hi : R) : (setPhases lo hi s).params = s.params := rfl
@[simp] theorem setPhases_sink (lo hi : R) : (setPhases lo hi s).sink = s.sink := rfl
@[simp] theorem setPhases_agents (lo hi : R) : (setPhases lo hi s).agents = s.agents := rfl
@[simp] theorem setPhases_response (lo hi : R) : (setPhases lo hi s).response = s.response := rfl

/-! ### raise_invalidSymbol -/

@[simp] theorem raise_invalidSymbol_phLo (N : Num R) : (raise N .invalidSymbol s).phLo = s.phLo := rfl
@[simp] theorem raise_invalidSymbol_phHi (N : Num R) : (raise N .invalidSymbol s).phHi = s.phHi := rfl
@[simp] theorem raise_invalidSymbol_fLo (N : Num R) : (raise N .invalidSymbol s).fLo = s.fLo := rfl
@[simp] theorem raise_invalidSymbol_fHi (N : Num R) : (raise N .invalidSymbol s).fHi = s.fHi := rfl
@[simp] theorem raise_invalidSymbol_playing (N : Num R) : (raise N .invalidSymbol s).playing = s.playing := rfl
@[simp] theorem raise_invalidSymbol_seq (N : Num R) : (raise N .invalidSymbol s).seq = s.seq := rfl
@[simp] theorem raise_invalidSymbol_tickReq (N : Num R) : (raise N .invalidSymbol s).tickReq = s.tickReq := rfl
@[simp] theorem raise_invalidSymbol_sinkErr (N : Num R) : (raise N .invalidSymbol s).sinkErr = s.sinkErr := rfl
@[simp] theorem raise_invalidSymbol_levels (N : Num R) : (raise N .invalidSymbol s).levels = s.levels := rfl
@[simp] theorem raise_invalidSymbol_params (N : Num R) : (raise N .invalidSymbol s).params = s.params := rfl
@[simp] theorem raise_invalidSymbol_sink (N : Num R) : (raise N .invalidSymbol s).sink = s.sink := rfl
@[simp] theorem raise_invalidSymbol_agents (N : Num R) : (raise N .invalidSymbol s).agents = s.agents := rfl
@[simp] theorem raise_invalidSymbol_response (N : Num R) : (raise N .invalidSymbol s).response = some { code := .invalidSymbol, levels := none } := rfl

/-! ### raise_illegalCommand -/

@[simp] theorem raise_illegalCommand_phLo (N : Num R) : (raise N .illegalCommand s).phLo = s.phLo := rfl
@[simp] theorem raise_illegalCommand_phHi (N : Num R) : (raise N .illegalCommand s).phHi = s.phHi := rfl
@[simp] theorem raise_illegalCommand_fLo (N : Num R) : (raise N .illegalCommand s).fLo = s.fLo := rfl
@[simp] theorem raise_illegalCommand_fHi (N : Num R) : (raise N .illegalCommand s).fHi = s.fHi := rfl
@[simp] theorem raise_illegalCommand_playing (N : Num R) : (raise N .illegalCommand s).playing = s.playing := rfl
@[simp] theorem raise_illegalCommand_seq (N : Num R) : (raise N .illegalCommand s).seq = s.seq := rfl
@[simp] theorem raise_illegalCommand_tickReq (N : Num R) : (raise N .illegalCommand s).tickReq = s.tickReq := rfl
@[simp] theorem raise_illegalCommand_sinkErr (N : Num R) : (raise N .illegalCommand s).sinkErr = s.sinkErr := rfl
@[simp] theorem raise_illegalCommand_levels (N : Num R) : (raise N .illegalCommand s).levels = s.levels := rfl
@[simp] theorem raise_illegalCommand_params (N : Num R) : (raise N .illegalCommand s).params = s.params := rfl
@[simp] theorem raise_illegalCommand_sink (N : Num R) : (raise N .illegalCommand s).sink = s.sink := rfl
@[simp] theorem raise_illegalCommand_agents (N : Num R) : (raise N .illegalCommand s).agents = s.agents := rfl
@[simp] theorem raise_illegalCommand_response (N : Num R) : (raise N .illegalCommand s).response = some { code := .illegalCommand, levels := none } := rfl

/-! ### raise_sinkUnavailable -/

@[simp] theorem raise_sinkUnavailable_phLo (N : Num R) : (raise N .sinkUnavailable s).phLo = s.phLo := rfl
@[simp] theorem raise_sinkUnavailable_phHi (N : Num R) : (raise N .sinkUnavailable s).phHi = s.phHi := rfl
@[simp] theorem raise_sinkUnavailable_fLo (N : Num R) : (raise N .sinkUnavailable s).fLo = s.fLo := rfl
@[simp] theorem raise_sinkUnavailable_fHi (N : Num R) : (raise N .sinkUnavailable s).fHi = s.fHi := rfl
@[simp] theorem raise_sinkUnavailable_playing (N : Num R) : (raise N .sinkUnavailable s).playing = false := rfl
@[simp] theorem raise_sinkUnavailable_seq (N : Num R) : (raise N .sinkUnavailable s).seq = .rest := rfl
@[simp] theorem raise_sinkUnavailable_tickReq (N : Num R) : (raise N .sinkUnavailable s).tickReq = s.tickReq := rfl
@[simp] theorem raise_sinkUnavailable_sinkErr (N : Num R) : (raise N .sinkUnavailable s).sinkErr = true := rfl
@[simp] theorem raise_sinkUnavailable_levels (N : Num R) : (raise N .sinkUnavailable s).levels = zeroLevels N := rfl
@[simp] theorem raise_sinkUnavailable_params (N : Num R) : (raise N .sinkUnavailable s).params = s.params := rfl
@[simp] theorem raise_sinkUnavailable_sink (N : Num R) : (raise N .sinkUnavailable s).sink = s.sink := rfl
@[simp] theorem raise_sinkUnavailable_agents (N : Num R) : (raise N .sinkUnavailable s).agents = s.agents := rfl
@[simp] theorem raise_sinkUnavailable_response (N : Num R) : (raise N .sinkUnavailable s).response = s.response := rfl

/-! ### tbegin -/

@[simp] theorem tbegin_phLo : (tbegin s).phLo = s.phLo := rfl
@[simp] theorem tbegin_phHi : (tbegin s).phHi = s.phHi := rfl
@[simp] theorem tbegin_fLo : (tbegin s).fLo = s.fLo := rfl
@[simp] theorem tbegin_fHi : (tbegin s).fHi = s.fHi := rfl
@[simp] theorem tbegin_playing : (tbegin s).playing = s.playing := rfl
@[simp] theorem tbegin_seq : (tbegin s).seq = .head := rfl
@[simp] theorem tbegin_tickReq : (tbegin s).tickReq = false := rfl
@[simp] theorem tbegin_sinkErr : (tbegin s).sinkErr = s.sinkErr := rfl
@[simp] theorem tbegin_levels : (tbegin s).levels = s.levels := rfl
@[simp] theorem tbegin_params : (tbegin s).params = s.params := rfl
@[simp] theorem tbegin_sink : (tbegin s).sink = s.sink := rfl
@[simp] theorem tbegin_agents : (tbegin s).agents = s.agents := rfl
@[simp] theorem tbegin_response : (tbegin s).response = s.response := rfl

/-! ### idleCycle -/

@[simp] theorem idleCycle_phLo (N : Num R) : (idleCycle N s).phLo = s.phLo := rfl
@[simp] theorem idleCycle_phHi (N : Num R) : (idleCycle N s).phHi = s.phHi := rfl
@[simp] theorem idleCycle_fLo (N : Num R) : (idleCycle N s).fLo = s.fLo := rfl
@[simp] theorem idleCycle_fHi (N : Num R) : (idleCycle N s).fHi = s.fHi := rfl
@[simp] theorem idleCycle_playing (N : Num R) : (idleCycle N s).playing = s.playing := rfl
@[simp] theorem idleCycle_seq (N : Num R) : (idleCycle N s).seq = .rest := rfl
@[simp] theorem idleCycle_tickReq (N : Num R) : (idleCycle N s).tickReq = s.tickReq := rfl
@[simp] theorem idleCycle_sinkErr (N : Num R) : (idleCycle N s).sinkErr = s.sinkErr := rfl
@[simp] theorem idleCycle_levels (N : Num R) : (idleCycle N s).levels = zeroLevels N := rfl
@[simp] theorem idleCycle_params (N : Num R) : (idleCycle N s).params = s.params := rfl
@[simp] theorem idleCycle_sink (N : Num R) : (idleCycle N s).sink = s.sink := rfl
@[simp] theorem idleCycle_agents (N : Num R) : (idleCycle N s).agents = s.agents := rfl
@[simp] theorem idleCycle_response (N : Num R) : (idleCycle N s).response = s.response := rfl

/-! ### takeInput -/

@[simp] theorem takeInput_phLo : (takeInput s).phLo = s.phLo := rfl
@[simp] theorem takeInput_phHi : (takeInput s).phHi = s.phHi := rfl
@[simp] theorem takeInput_fLo : (takeInput s).fLo = s.fLo := rfl
@[simp] theorem takeInput_fHi : (takeInput s).fHi = s.fHi := rfl
@[simp] theorem takeInput_playing : (takeInput s).playing = s.playing := rfl
@[simp] theorem takeInput_seq : (takeInput s).seq = s.seq := rfl
@[simp] theorem takeInput_tickReq : (takeInput s).tickReq = s.tickReq := rfl
@[simp] theorem takeInput_sinkErr : (takeInput s).sinkErr = s.sinkErr := rfl
@[simp] theorem takeInput_levels : (takeInput s).levels = s.levels := rfl
@[simp] theorem takeInput_params : (takeInput s).params = s.params := rfl
@[simp] theorem takeInput_sink : (takeInput s).sink = s.sink := rfl
@[simp] theorem takeInput_agents : (takeInput s).agents = inputDone s.agents := rfl
@[simp] theorem takeInput_response : (takeInput s).response = none := rfl

/-! ### construct -/

@[simp] theorem construct_phLo (N : Num R) : (construct N s).phLo = N.zero := rfl
@[simp] theorem construct_phHi (N : Num R) : (construct N s).phHi = N.zero := rfl
@[simp] theorem construct_fLo (N : Num R) : (construct N s).fLo = 0 := rfl
@[simp] theorem construct_fHi (N : Num R) : (construct N s).fHi = 0 := rfl
@[simp] theorem construct_playing (N : Num R) : (construct N s).playing = false := rfl
@[simp] theorem construct_seq (N : Num R) : (construct N s).seq = .rest := rfl
@[simp] theorem construct_tickReq (N : Num R) : (construct N s).tickReq = false := rfl
@[simp] theorem construct_sinkErr (N : Num R) : (construct N s).sinkErr = false := rfl
@[simp] theorem construct_levels (N : Num R) : (construct N s).levels = zeroLevels N := rfl
@[simp] theorem construct_params (N : Num R) : (construct N s).params = s.params := rfl
@[simp] theorem construct_sink (N : Num R) : (construct N s).sink = s.sink := rfl
@[simp] theorem construct_agents (N : Num R) : (construct N s).agents = s.agents := rfl
@[simp] theorem construct_response (N : Num R) : (construct N s).response = none := rfl

/-! ### sinkCap_snd -/

@[simp] theorem sinkCap_snd_phLo : (sinkCap s).2.phLo = s.phLo := rfl
@[simp] theorem sinkCap_snd_phHi : (sinkCap s).2.phHi = s.phHi := rfl
@[simp] theorem sinkCap_snd_fLo : (sinkCap s).2.fLo = s.fLo := rfl
@[simp] theorem sinkCap_snd_fHi : (sinkCap s).2.fHi = s.fHi := rfl
@[simp] theorem sinkCap_snd_playing : (sinkCap s).2.playing = s.playing := rfl
@[simp] theorem sinkCap_snd_seq : (sinkCap s).2.seq = s.seq := rfl
@[simp] theorem sinkCap_snd_tickReq : (sinkCap s).2.tickReq = s.tickReq := rfl
@[simp] theorem sinkCap_snd_sinkErr : (sinkCap s).2.sinkErr = s.sinkErr := rfl
@[simp] theorem sinkCap_snd_levels : (sinkCap s).2.levels = s.levels := rfl
@[simp] theorem sinkCap_snd_params : (sinkCap s).2.params = s.params := rfl
@[simp] theorem sinkCap_snd_sink : (sinkCap s).2.sink = capDone s.sink := rfl
@[simp] theorem sinkCap_snd_agents : (sinkCap s).2.agents = s.agents := rfl
@[simp] theorem sinkCap_snd_response : (sinkCap s).2.response = s.response := rfl

/-! ### sinkWrite_snd -/

@[simp] theorem sinkWrite_snd_phLo (buf : List Sample) : (sinkWrite buf s).2.phLo = s.phLo := rfl
@[simp] theorem sinkWrite_snd_phHi (buf : List Sample) : (sinkWrite buf s).2.phHi = s.phHi := rfl
@[simp] theorem sinkWrite_snd_fLo (buf : List Sample) : (sinkWrite buf s).2.fLo = s.fLo := rfl
@[simp] theorem sinkWrite_snd_fHi (buf : List Sample) : (sinkWrite buf s).2.fHi = s.fHi := rfl
@[simp] theorem sinkWrite_snd_playing (buf : List Sample) : (sinkWrite buf s).2.playing = s.playing := rfl
@[simp] theorem sinkWrite_snd_seq (buf : List Sample) : (sinkWrite buf s).2.seq = s.seq := rfl
@[simp] theorem sinkWrite_snd_tickReq (buf : List Sample) : (sinkWrite buf s).2.tickReq = s.tickReq := rfl
@[simp] theorem sinkWrite_snd_sinkErr (buf : List Sample) : (sinkWrite buf s).2.sinkErr = s.sinkErr := rfl
@[simp] theorem sinkWrite_snd_levels (buf : List Sample) : (sinkWrite buf s).2.levels = s.levels := rfl
@[simp] theorem sinkWrite_snd_params (buf : List Sample) : (sinkWrite buf s).2.params = s.params := rfl
@[simp] theorem sinkWrite_snd_sink (buf : List Sample) : (sinkWrite buf s).2.sink = wrDone buf s.sink := rfl
@[simp] theorem sinkWrite_snd_agents (buf : List Sample) : (sinkWrite buf s).2.agents = s.agents := rfl
@[simp] theorem sinkWrite_snd_response (buf : List Sample) : (sinkWrite buf s).2.response = s.response := rfl

/-! ### the sink port -/

variable (k : SinkPort) (buf : List Sample)

@[simp] theorem sinkCap_fst : (sinkCap s).1 = nextCap s.sink := rfl
@[simp] theorem sinkWrite_fst : (sinkWrite buf s).1 = nextWr s.sink := rfl
@[simp] theorem capDone_stream : (capDone k).stream = k.stream := rfl
@[simp] theorem capDone_capScript : (capDone k).capScript = k.capScript.tail := rfl
@[simp] theorem capDone_wrScript : (capDone k).wrScript = k.wrScript := rfl
@[simp] theorem capDone_capAsked : (capDone k).capAsked = k.capAsked + 1 := rfl
@[simp] theorem capDone_wrAsked : (capDone k).wrAsked = k.wrAsked := rfl
@[simp] theorem wrDone_capScript : (wrDone buf k).capScript = k.capScript := rfl
@[simp] theorem wrDone_wrScript : (wrDone buf k).wrScript = k.wrScript.tail := rfl
@[simp] theorem wrDone_capAsked : (wrDone buf k).capAsked = k.capAsked := rfl
@[simp] theorem wrDone_wrAsked : (wrDone buf k).wrAsked = k.wrAsked + 1 := rfl

theorem wrDone_stream_ok (h : nextWr k = .ok) : (wrDone buf k).stream = k.stream ++ buf := by
  simp only [wrDone, h]

theorem wrDone_stream_fail (h : nextWr k = .fail) : (wrDone buf k).stream = k.stream := by
  simp only [wrDone, h]

end Sys2Proof.Machine
end

