-- ==== Sys2Proof/Laws/Controller.lean ====
section
/-! SUPPORT. What a step can do, said once: the outcomes of a command, of `CYCLE` and of a whole step. -/

namespace Sys2Proof.Machine

variable {R : Type}

/-- The state a command leaves: every command completes (R133 to R139). -/
def afterCommand (i : Instr) (s : State R) : State R :=
  match i with
  | .play => respond .ok (turnOn s)
  | .stop => respond .ok (turnOff s)
  | .toggle => respond .ok (if s.playing then turnOff s else turnOn s)
  | .select g =>
    match lookup g with
    | none => respond .invalidSymbol s
    | some (lo, hi) => respond .ok (setFreq lo hi s)
  | .tick => respond .ok (requestTick s)
  | .notify => respond .ok (requestTick s)
  | .poll => respondLevels s

/-- A command always completes, in every record. -/
theorem execIn_eq (N : Num R) (i : Instr) (s : State R) : execIn N i s = .next (afterCommand i s) := by
  cases i with
  | select g => cases hl : lookup g <;> simp only [execIn, selectIn, afterCommand, hl, raise]
  | _ => rfl

/-- `exec` always answers a next state. -/
theorem exec_eq (i : Instr) (s : State) : exec i s = .next (afterCommand i s) := by
  cases i with
  | select g => cases hl : lookup g <;> simp only [exec, execSelect, selectIn, afterCommand, hl, raise]
  | _ => rfl

/-! ### what a command leaves unchanged -/

section

variable (i : Instr) (s : State R)

@[simp] theorem afterCommand_phLo : (afterCommand i s).phLo = s.phLo := by
  cases i <;> simp only [afterCommand] <;> (try split) <;> rfl

@[simp] theorem afterCommand_phHi : (afterCommand i s).phHi = s.phHi := by
  cases i <;> simp only [afterCommand] <;> (try split) <;> rfl

@[simp] theorem afterCommand_seq : (afterCommand i s).seq = s.seq := by
  cases i <;> simp only [afterCommand] <;> (try split) <;> rfl

@[simp] theorem afterCommand_levels : (afterCommand i s).levels = s.levels := by
  cases i <;> simp only [afterCommand] <;> (try split) <;> rfl

@[simp] theorem afterCommand_params : (afterCommand i s).params = s.params := by
  cases i <;> simp only [afterCommand] <;> (try split) <;> rfl

@[simp] theorem afterCommand_sink : (afterCommand i s).sink = s.sink := by
  cases i <;> simp only [afterCommand] <;> (try split) <;> rfl

@[simp] theorem afterCommand_agents : (afterCommand i s).agents = s.agents := by
  cases i <;> simp only [afterCommand] <;> (try split) <;> rfl

theorem afterCommand_playing : (afterCommand i s).playing =
    match i with
    | .play => true
    | .stop => false
    | .toggle => !s.playing
    | _ => s.playing := by
  cases i with
  | toggle => cases h : s.playing <;> simp [afterCommand, h]
  | select g => cases h : lookup g <;> simp [afterCommand, h]
  | _ => rfl

theorem afterCommand_sinkErr : (afterCommand i s).sinkErr =
    match i with
    | .play => false
    | .toggle => s.playing && s.sinkErr
    | _ => s.sinkErr := by
  cases i with
  | toggle => cases h : s.playing <;> simp [afterCommand, h]
  | select g => cases h : lookup g <;> simp [afterCommand, h]
  | _ => rfl

theorem afterCommand_tickReq : (afterCommand i s).tickReq =
    match i with
    | .tick => true
    | .notify => true
    | _ => s.tickReq := by
  cases i with
  | toggle => cases h : s.playing <;> simp [afterCommand, h]
  | select g => cases h : lookup g <;> simp [afterCommand, h]
  | _ => rfl

/-- The frequencies after a command: those of the glyph a `SELECT` names, else as before. -/
theorem afterCommand_freq : ((afterCommand i s).fLo, (afterCommand i s).fHi) =
    match i with
    | .select g => (lookup g).getD (s.fLo, s.fHi)
    | _ => (s.fLo, s.fHi) := by
  cases i with
  | toggle => cases h : s.playing <;> simp [afterCommand, h]
  | select g => cases h : lookup g <;> simp [afterCommand, h]
  | _ => rfl

theorem afterCommand_response : (afterCommand i s).response =
    some (match i with
      | .select g => { code := if (lookup g).isSome then .ok else .invalidSymbol, levels := none }
      | .poll => { code := .ok, levels := some s.levels }
      | _ => { code := .ok, levels := none }) := by
  cases i with
  | toggle => cases h : s.playing <;> simp [afterCommand, h]
  | select g => cases h : lookup g <;> simp [afterCommand, h]
  | _ => rfl

end

/-- The state after a chunk was written and detected. -/
def afterChunk (ph : Phases R) (buf : List Sample) (v : Vector R 8) (s : State R) : State R :=
  setLevels v (sinkWrite buf (setPhases ph.lo ph.hi (sinkCap s).2)).2

/-- The state after the sink refused a rendered chunk. -/
def afterLostChunk (N : Num R) (ph : Phases R) (buf : List Sample) (s : State R) : State R :=
  raise N .sinkUnavailable (sinkWrite buf (setPhases ph.lo ph.hi (sinkCap s).2)).2

/-- The state is streaming with an active oscillator, and the sink's next answer is a capacity of at least the threshold. -/
structure Renders (s : State R) (n : Word) : Prop where
  playing : s.playing = true
  active : bothInactive s = false
  cap : nextCap s.sink = .ok n
  enough : s.params.threshold ≤ n.toNat

/-- What `RENDER` gives in this cycle. -/
def rendered (N : Num R) (s : State R) (n : Word) : Option (List Sample × Phases R) :=
  render N s.params s.fLo s.fHi n.toNat { lo := s.phLo, hi := s.phHi }

/-- Everything `CYCLE` can do when it answers a next state (R141). -/
theorem cycle_next {N : Num R} {s s' : State R} (h : cycle N s = .next s') :
    ((s.playing = false ∨ bothInactive s = true) ∧ s' = idleCycle N s) ∨
    (s.playing = true ∧ bothInactive s = false ∧
      ((nextCap s.sink = .fail ∧ s' = raise N .sinkUnavailable (sinkCap s).2) ∨
       (∃ n, nextCap s.sink = .ok n ∧ n.toNat < s.params.threshold ∧ s' = setSeq .rest (sinkCap s).2))) ∨
    (∃ n buf ph, Renders s n ∧ rendered N s n = some (buf, ph) ∧
      ((nextWr s.sink = .fail ∧ s' = afterLostChunk N ph buf s) ∨
       (nextWr s.sink = .ok ∧ ∃ v, detectAll N buf = some v ∧ s' = afterChunk ph buf v s))) := by
  unfold cycle at h
  by_cases hp : s.playing = true
  case neg =>
    rw [if_pos (by simp [hp])] at h
    exact .inl ⟨.inl (by simpa using hp), by simpa using h.symm⟩
  by_cases hb : bothInactive s = true
  · rw [if_pos (by simp [hb])] at h
    exact .inl ⟨.inr hb, by simpa using h.symm⟩
  rw [Bool.not_eq_true] at hb
  rw [if_neg (by simp [hp, hb]), pullCycle] at h
  cases hc : nextCap s.sink with
  | fail =>
    have hs : sinkCap s = (.fail, (sinkCap s).2) := by rw [← hc]; rfl
    rw [hs] at h
    exact .inr (.inl ⟨hp, hb, .inl ⟨rfl, by simpa using h.symm⟩⟩)
  | ok n =>
    have hs : sinkCap s = (.ok n, (sinkCap s).2) := by rw [← hc]; rfl
    rw [hs] at h
    change (if n.toNat < (sinkCap s).2.params.threshold then .next (setSeq .rest (sinkCap s).2)
      else renderCycle N n.toNat (sinkCap s).2) = Host.Outcome.next s' at h
    by_cases hn : n.toNat < (sinkCap s).2.params.threshold
    · rw [if_pos hn] at h
      exact .inr (.inl ⟨hp, hb, .inr ⟨n, rfl, hn, by simpa using h.symm⟩⟩)
    rw [if_neg hn] at h
    simp only [renderCycle, sinkCap_snd_params, sinkCap_snd_fLo, sinkCap_snd_fHi, sinkCap_snd_phLo, sinkCap_snd_phHi] at h
    cases hr : rendered N s n with
    | none => rw [rendered] at hr; simp only [hr] at h; cases h
    | some r =>
      obtain ⟨buf, ph⟩ := r
      have hr' := hr
      rw [rendered] at hr'
      simp only [hr', writeAndDetect] at h
      refine .inr (.inr ⟨n, buf, ph, ⟨hp, hb, hc, Nat.le_of_not_lt hn⟩, hr, ?_⟩)
      cases hw : nextWr s.sink with
      | fail =>
        have hs' : sinkWrite buf (setPhases ph.lo ph.hi (sinkCap s).2) =
            (.fail, (sinkWrite buf (setPhases ph.lo ph.hi (sinkCap s).2)).2) := by
          rw [← hw]; rfl
        rw [hs'] at h
        exact .inl ⟨rfl, by simpa [afterLostChunk] using h.symm⟩
      | ok =>
        have hs' : sinkWrite buf (setPhases ph.lo ph.hi (sinkCap s).2) =
            (.ok, (sinkWrite buf (setPhases ph.lo ph.hi (sinkCap s).2)).2) := by
          rw [← hw]; rfl
        rw [hs'] at h
        cases hd : detectAll N buf with
        | none => simp only [hd] at h; cases h
        | some v =>
          simp only [hd] at h
          exact .inr ⟨rfl, v, rfl, by simpa [afterChunk] using h.symm⟩

/-- Everything a turn can do when it answers a next state (R130), whichever way its commands are run, as long as they are run
as their rules say. -/
theorem takeTurn_next {N : Num R} {run : Instr → State R → Host.Outcome (State R) Fault Refusal}
    (hrun : ∀ i s, run i s = .next (afterCommand i s)) {s s' : State R}
    (h : takeTurn N run (nextInput s.agents) (takeInput s) = .next s') :
    (∃ w, nextInput s.agents = .command w ∧
      ((∃ i, decode w = .ok i ∧ s' = afterCommand i (takeInput s)) ∨
       (∃ e, decode w = .error e ∧ s' = raise N .illegalCommand (takeInput s)))) ∨
    (nextInput s.agents = .controller ∧
      ((s.seq = .head ∧ cycle N (takeInput s) = .next s') ∨
       (s.seq = .rest ∧ s.tickReq = true ∧ s' = tbegin (takeInput s)) ∨
       (s.seq = .rest ∧ s.tickReq = false ∧ s' = takeInput s))) ∨
    (nextInput s.agents = .reset ∧ s' = construct N (takeInput s)) := by
  unfold takeTurn at h
  cases hi : nextInput s.agents with
  | command w =>
    simp only [hi, takeCommand] at h
    refine .inl ⟨w, rfl, ?_⟩
    cases hd : decode w with
    | ok i =>
      simp only [hd, hrun] at h
      exact .inl ⟨i, rfl, by simpa using h.symm⟩
    | error e =>
      simp only [hd] at h
      exact .inr ⟨e, rfl, by simpa using h.symm⟩
  | controller =>
    simp only [hi, controllerTurn, cycleEnabled, tbeginEnabled, takeInput_seq, takeInput_tickReq] at h
    refine .inr (.inl ⟨rfl, ?_⟩)
    cases hq : s.seq with
    | head => simp only [hq] at h; exact .inl ⟨rfl, by simpa using h⟩
    | rest =>
      cases ht : s.tickReq <;> simp [hq, ht] at h
      · exact .inr (.inr ⟨rfl, rfl, h.symm⟩)
      · exact .inr (.inl ⟨rfl, rfl, h.symm⟩)
  | reset =>
    simp only [hi] at h
    exact .inr (.inr ⟨rfl, by simpa using h.symm⟩)

/-- `takeTurn_next` for the machine's step. -/
theorem step_next {s s' : State} (h : step s = .next s') :
    (∃ w, nextInput s.agents = .command w ∧
      ((∃ i, decode w = .ok i ∧ s' = afterCommand i (takeInput s)) ∨
       (∃ e, decode w = .error e ∧ s' = raise machineNum .illegalCommand (takeInput s)))) ∨
    (nextInput s.agents = .controller ∧
      ((s.seq = .head ∧ cycle machineNum (takeInput s) = .next s') ∨
       (s.seq = .rest ∧ s.tickReq = true ∧ s' = tbegin (takeInput s)) ∨
       (s.seq = .rest ∧ s.tickReq = false ∧ s' = takeInput s))) ∨
    (nextInput s.agents = .reset ∧ s' = construct machineNum (takeInput s)) :=
  takeTurn_next exec_eq h

end Sys2Proof.Machine
end

