-- ==== Sys2Proof/Laws/Decode.lean ====
section
/-! SUPPORT. The two bytes of a command word, taken apart and put together (R71), and the opcodes one by one. -/

namespace Sys2Proof

@[simp] theorem Word.op_append (o a : Byte) : Word.op (o ++ a) = o := by
  rw [Word.op, BitVec.extractLsb'_append_eq_left]

@[simp] theorem Word.arg_append (o a : Byte) : Word.arg (o ++ a) = a := by
  rw [Word.arg, BitVec.extractLsb'_append_eq_right]

/-- A command word is its `op` followed by its `arg` (R71). -/
theorem Word.op_append_arg (w : Word) : Word.op w ++ Word.arg w = w := by
  apply BitVec.eq_of_getLsbD_eq
  intro i hi
  rw [BitVec.getLsbD_append, Word.op, Word.arg]
  rcases Nat.lt_or_ge i 8 with h | h
  · simp [h]
  · have h1 : 8 + (i - 8) = i := by omega
    have h2 : i - 8 < 8 := by omega
    have h3 : ¬i < 8 := by omega
    simp [h1, h2, h3]

/-- Two command words are the same when both bytes are. -/
theorem Word.ext_bytes {v w : Word} (ho : Word.op v = Word.op w) (ha : Word.arg v = Word.arg w) : v = w := by
  rw [← Word.op_append_arg v, ← Word.op_append_arg w, ho, ha]

@[simp] theorem encode_op (i : Instr) : Word.op (encode i) = i.op := Word.op_append _ _

@[simp] theorem encode_arg (i : Instr) : Word.arg (encode i) = i.arg := Word.arg_append _ _

theorem noArg_zero (i : Instr) : noArg 0x00#8 i = .ok i := rfl

theorem noArg_ne_zero {a : Byte} (h : a ≠ 0x00#8) (i : Instr) : noArg a i = .error .argNotZero := if_neg h

end Sys2Proof
end

