-- ==== Sys2Proof/Laws/F64.lean ====
section
/-! SUPPORT. Binary64 patterns and the one rounding function: what a pattern stands for, and that `roundFrac` gives the correctly
rounded number of a fraction (R9). -/

namespace Sys2Proof.Machine

/-! ## Patterns -/

theorem F64.ofBits_toNat (s : Bool) {b : Nat} (hb : b < 2 ^ 63) :
    (F64.ofBits s b).toNat = (if s then 2 ^ 63 else 0) + b := by
  rw [F64.ofBits, BitVec.toNat_ofNat, Nat.mod_eq_of_lt]
  split <;> omega

theorem F64.neg_ofBits (s : Bool) {b : Nat} (hb : b < 2 ^ 63) : F64.neg (F64.ofBits s b) = s := by
  rw [F64.neg, F64.ofBits_toNat s hb]
  cases s <;> simp
  exact hb

theorem F64.mag_ofBits (s : Bool) {b : Nat} (hb : b < 2 ^ 63) : F64.mag (F64.ofBits s b) = b := by
  rw [F64.mag, F64.ofBits_toNat s hb]
  cases s <;> simp <;> omega

theorem F64.frac_eq (x : F64) : F64.frac x = F64.mag x % 2 ^ 52 := by
  rw [F64.frac, F64.mag, Nat.mod_mod_of_dvd]
  exact ⟨2 ^ 11, by norm_num⟩

/-- The real number of a magnitude. -/
noncomputable def F64.magReal (b : Nat) : ℝ :=
  ((if b / 2 ^ 52 = 0 then b % 2 ^ 52 else b % 2 ^ 52 + 2 ^ 52 : ℕ) : ℝ) * (2:ℝ) ^ (((max 1 (b / 2 ^ 52) : ℕ) : ℤ) - 1075)

/-- A finite number is its magnitude with its sign. -/
theorem F64.toReal_eq_magReal (x : F64) : F64.toReal x = (if F64.neg x then -1 else 1) * F64.magReal (F64.mag x) := by
  rw [F64.toReal, F64.magReal, F64.mant, F64.expo, F64.expField, F64.frac_eq, mul_assoc]

/-- A magnitude `E·2^52 + m` in the form in which `roundFrac` writes it. -/
theorem F64.magReal_form {E m : Nat} (hm : m ≤ 2 ^ 53) (hE : E = 0 ∨ 2 ^ 52 ≤ m) :
    F64.magReal (E * 2 ^ 52 + m) = (m : ℝ) * (2 : ℝ) ^ ((E : ℤ) - 1074) := by
  rw [F64.magReal]
  rcases Nat.lt_or_ge m (2 ^ 52) with h | h
  · have hE0 : E = 0 := by omega
    subst hE0
    have h1 : (0 * 2 ^ 52 + m) / 2 ^ 52 = 0 := by omega
    have h2 : (0 * 2 ^ 52 + m) % 2 ^ 52 = m := by omega
    rw [h1, h2, if_pos rfl]
    norm_num
  · rcases Nat.lt_or_ge m (2 ^ 53) with h' | h'
    · have h1 : (E * 2 ^ 52 + m) / 2 ^ 52 = E + 1 := by omega
      have h2 : (E * 2 ^ 52 + m) % 2 ^ 52 = m - 2 ^ 52 := by omega
      rw [h1, h2, if_neg (show ¬E + 1 = 0 by omega), Nat.sub_add_cancel h, Nat.max_eq_right (by omega)]
      congr 2
      push_cast
      ring
    · have hm' : m = 2 ^ 53 := by omega
      have h1 : (E * 2 ^ 52 + m) / 2 ^ 52 = E + 2 := by omega
      have h2 : (E * 2 ^ 52 + m) % 2 ^ 52 = 0 := by omega
      rw [h1, h2, if_neg (show ¬E + 2 = 0 by omega), Nat.max_eq_right (by omega), hm']
      have h3 : (((E + 2 : ℕ) : ℤ) - 1075) = ((E : ℤ) - 1074) + 1 := by push_cast; ring
      rw [h3, zpow_add₀ (by norm_num)]
      push_cast
      ring

/-- The value of a pattern whose magnitude is `E·2^52 + m`. -/
theorem F64.toReal_ofBits (s : Bool) {E m : Nat} (hm : m ≤ 2 ^ 53) (hE : E = 0 ∨ 2 ^ 52 ≤ m)
    (hb : E * 2 ^ 52 + m < 2047 * 2 ^ 52) :
    F64.toReal (F64.ofBits s (E * 2 ^ 52 + m)) =
      (if s then -1 else 1) * (m : ℝ) * (2 : ℝ) ^ ((E : ℤ) - 1074) := by
  rw [F64.toReal_eq_magReal, F64.neg_ofBits s (by omega), F64.mag_ofBits s (by omega), F64.magReal_form hm hE, mul_assoc]

theorem F64.finite_ofBits (s : Bool) {b : Nat} (hb : b < 2047 * 2 ^ 52) : F64.finite (F64.ofBits s b) = true := by
  rw [F64.finite, F64.mag_ofBits s (by omega)]
  simpa using hb

theorem F64.mant_lt (x : F64) : F64.mant x < 2 ^ 53 := by
  have h : F64.frac x < 2 ^ 52 := Nat.mod_lt _ (by norm_num)
  rw [F64.mant]
  split <;> omega

theorem F64.expo_ge (x : F64) : -1074 ≤ F64.expo x := by
  rw [F64.expo]
  have : 1 ≤ max 1 (F64.expField x) := Nat.le_max_left _ _
  omega

theorem F64.abs_toReal (x : F64) : |F64.toReal x| = (F64.mant x : ℝ) * (2 : ℝ) ^ F64.expo x := by
  have h : 0 ≤ (F64.mant x : ℝ) * (2 : ℝ) ^ F64.expo x := by positivity
  rw [F64.toReal]
  split
  · rw [mul_assoc, neg_one_mul, abs_neg, abs_of_nonneg h]
  · rw [one_mul, abs_of_nonneg h]

/-! ## Rounding to a natural number -/

/-- `nearestEven` is within one half of the fraction, and even at exactly one half. -/
theorem F64.nearestEven_near (n : Nat) {d : Nat} (hd : 0 < d) :
    |(F64.nearestEven n d : ℝ) - (n : ℝ) / d| ≤ 1 / 2 ∧
    (|(F64.nearestEven n d : ℝ) - (n : ℝ) / d| = 1 / 2 → F64.nearestEven n d % 2 = 0) := by
  have hd' : (0 : ℝ) < d := by exact_mod_cast hd
  have hn : (n : ℝ) = d * (n / d : ℕ) + (n % d : ℕ) := by exact_mod_cast (Nat.div_add_mod n d).symm
  have hr : (n % d : ℕ) < d := Nat.mod_lt _ hd
  have hx : (n : ℝ) / d = (n / d : ℕ) + ((n % d : ℕ) : ℝ) / d := by
    rw [hn]
    have h1 : (d * (n / d) + n % d) / d = n / d := by rw [Nat.mul_add_div hd, Nat.div_eq_of_lt hr, Nat.add_zero]
    have h2 : (d * (n / d) + n % d) % d = n % d := by rw [Nat.mul_add_mod, Nat.mod_mod]
    field_simp
  rw [hx]
  set q := n / d
  set r := n % d
  have hr0 : (0 : ℝ) ≤ (r : ℝ) / d := by positivity
  have hr1 : (r : ℝ) / d < 1 := by rw [div_lt_one hd']; exact_mod_cast hr
  have hval : F64.nearestEven n d = if d < 2 * r ∨ (2 * r = d ∧ q % 2 = 1) then q + 1 else q := rfl
  rw [hval]
  split
  case isTrue h =>
    have h2 : (1 : ℝ) / 2 ≤ (r : ℝ) / d := by
      rw [div_le_div_iff₀ (by norm_num) hd']
      have : d ≤ 2 * r := by omega
      have : (d : ℝ) ≤ 2 * r := by exact_mod_cast this
      linarith
    have h3 : ((q + 1 : ℕ) : ℝ) - ((q : ℝ) + (r : ℝ) / d) = 1 - (r : ℝ) / d := by push_cast; ring
    rw [h3, abs_of_nonneg (by linarith)]
    refine ⟨by linarith, fun he => ?_⟩
    have h4 : (r : ℝ) / d = 1 / 2 := by linarith
    have h5 : 2 * r = d := by
      rw [div_eq_div_iff hd'.ne' (by norm_num)] at h4
      have : (2 : ℝ) * r = d := by linarith
      exact_mod_cast this
    omega
  case isFalse h =>
    have h2 : (r : ℝ) / d ≤ 1 / 2 := by
      rw [div_le_div_iff₀ hd' (by norm_num)]
      have : 2 * r ≤ d := by omega
      have : (2 : ℝ) * r ≤ d := by exact_mod_cast this
      linarith
    have h3 : (q : ℝ) - ((q : ℝ) + (r : ℝ) / d) = -((r : ℝ) / d) := by ring
    rw [h3, abs_neg, abs_of_nonneg hr0]
    refine ⟨h2, fun he => ?_⟩
    have h5 : 2 * r = d := by
      rw [div_eq_div_iff hd'.ne' (by norm_num)] at he
      have : (2 : ℝ) * r = d := by linarith
      exact_mod_cast this
    omega

/-- An integer within one half of `x` and even at exactly one half: none is nearer, and where another is as near, it is even. -/
theorem F64.nearest_integer {m : Nat} {x : ℝ} (h1 : |(m : ℝ) - x| ≤ 1 / 2) (h2 : |(m : ℝ) - x| = 1 / 2 → m % 2 = 0) (k : ℤ) :
    |(m : ℝ) - x| ≤ |(k : ℝ) - x| ∧ (|(m : ℝ) - x| = |(k : ℝ) - x| → k = m ∨ m % 2 = 0) := by
  by_cases hk : k = m
  · subst hk
    exact ⟨le_of_eq (by norm_cast), fun _ => .inl rfl⟩
  · have h3 : (1 : ℝ) ≤ |(k : ℝ) - m| := by
      have : (1 : ℤ) ≤ |k - m| := Int.one_le_abs (sub_ne_zero.2 hk)
      exact_mod_cast this
    have h4 : |(k : ℝ) - m| ≤ |(k : ℝ) - x| + |(m : ℝ) - x| := by
      have := abs_sub_le (k : ℝ) x m
      rwa [abs_sub_comm x (m : ℝ)] at this
    exact ⟨by linarith, fun he => .inr (h2 (by linarith))⟩

/-! ## The exponent of the rounding -/

/-- Scaling a fraction by a power of two, on whichever side it goes. -/
theorem F64.scale_frac (n d : Nat) (e : ℤ) :
    ((n * 2 ^ (-e).toNat : ℕ) : ℝ) / ((d * 2 ^ e.toNat : ℕ) : ℝ) = (n : ℝ) / d * (2 : ℝ) ^ (-e) := by
  push_cast
  rcases le_total 0 e with h | h
  · have h1 : (-e).toNat = 0 := by omega
    obtain ⟨k, rfl⟩ := Int.eq_ofNat_of_zero_le h
    rw [h1, Int.toNat_natCast, zpow_neg, zpow_natCast, pow_zero, mul_one]
    field_simp
  · have h1 : e.toNat = 0 := by omega
    obtain ⟨k, hk⟩ := Int.eq_ofNat_of_zero_le (show 0 ≤ -e by omega)
    rw [h1, hk, Int.toNat_natCast, zpow_natCast, pow_zero, mul_one]
    ring

/-- The chosen exponent puts the scaled fraction below `2^53`, and at or above `2^52` unless it is that of the subnormals. -/
theorem F64.roundExp_spec {n d : Nat} (hn : 0 < n) (hd : 0 < d) :
    -1074 ≤ F64.roundExp n d ∧
    (n : ℝ) / d * (2 : ℝ) ^ (-F64.roundExp n d) < 2 ^ 53 ∧
    (F64.roundExp n d = -1074 ∨ (2 : ℝ) ^ 52 ≤ (n : ℝ) / d * (2 : ℝ) ^ (-F64.roundExp n d)) := by
  have hn' : (0 : ℝ) < n := by exact_mod_cast hn
  have hd' : (0 : ℝ) < d := by exact_mod_cast hd
  set a := Nat.log2 n with ha
  set b := Nat.log2 d with hb
  have hna : (2 : ℝ) ^ a ≤ n := by exact_mod_cast Nat.log2_self_le hn.ne'
  have hnb : (n : ℝ) < 2 ^ (a + 1) := by exact_mod_cast Nat.lt_log2_self (n := n)
  have hda : (2 : ℝ) ^ b ≤ d := by exact_mod_cast Nat.log2_self_le hd.ne'
  have hdb : (d : ℝ) < 2 ^ (b + 1) := by exact_mod_cast Nat.lt_log2_self (n := d)
  set e0 : ℤ := (a : ℤ) - (b : ℤ) - 52 with he0
  have hx0 : 0 < (n : ℝ) / d := by positivity
  have hp : ∀ z : ℤ, (0 : ℝ) < (2 : ℝ) ^ z := fun z => by positivity
  have hup : (n : ℝ) / d * (2 : ℝ) ^ (-e0) < 2 ^ 53 := by
    rw [show (-e0 : ℤ) = 53 + (b : ℤ) - ((a : ℤ) + 1) by omega, zpow_sub₀ (by norm_num), zpow_add₀ (by norm_num)]
    have : (2 : ℝ) ^ ((a : ℤ) + 1) = 2 ^ (a + 1) := by norm_cast
    rw [this, zpow_natCast]
    have h1 : (n : ℝ) / d * ((2 : ℝ) ^ (53 : ℤ) * 2 ^ b / 2 ^ (a + 1)) =
        ((n : ℝ) / 2 ^ (a + 1)) * ((2 : ℝ) ^ b / d) * 2 ^ 53 := by
      field_simp
    rw [h1]
    have h2 : (n : ℝ) / 2 ^ (a + 1) < 1 := by rw [div_lt_one (by positivity)]; exact hnb
    have h3 : (2 : ℝ) ^ b / d ≤ 1 := by rw [div_le_one hd']; exact hda
    have h4 : 0 < (n : ℝ) / 2 ^ (a + 1) := by positivity
    have h5 : 0 < (2 : ℝ) ^ b / d := by positivity
    have : (n : ℝ) / 2 ^ (a + 1) * ((2 : ℝ) ^ b / d) < 1 := by nlinarith
    nlinarith
  have hlow : (2 : ℝ) ^ 51 < (n : ℝ) / d * (2 : ℝ) ^ (-e0) := by
    rw [show (-e0 : ℤ) = 51 + ((b : ℤ) + 1) - (a : ℤ) by omega, zpow_sub₀ (by norm_num), zpow_add₀ (by norm_num)]
    have : (2 : ℝ) ^ ((b : ℤ) + 1) = 2 ^ (b + 1) := by norm_cast
    rw [this, zpow_natCast]
    have h1 : (n : ℝ) / d * ((2 : ℝ) ^ (51 : ℤ) * 2 ^ (b + 1) / 2 ^ a) =
        ((n : ℝ) / 2 ^ a) * ((2 : ℝ) ^ (b + 1) / d) * 2 ^ 51 := by
      field_simp
    rw [h1]
    have h2 : 1 ≤ (n : ℝ) / 2 ^ a := by rw [le_div_iff₀ (by positivity)]; simpa using hna
    have h3 : 1 < (2 : ℝ) ^ (b + 1) / d := by rw [lt_div_iff₀ hd']; simpa using hdb
    have : 1 < (n : ℝ) / 2 ^ a * ((2 : ℝ) ^ (b + 1) / d) := by nlinarith
    nlinarith
  -- the comparison that picks `e0` or `e0 - 1`
  have htest : n * 2 ^ (-e0).toNat < d * 2 ^ 52 * 2 ^ e0.toNat ↔ (n : ℝ) / d * (2 : ℝ) ^ (-e0) < 2 ^ 52 := by
    rw [← F64.scale_frac n d e0, div_lt_iff₀ (by positivity)]
    rw [show d * 2 ^ 52 * 2 ^ e0.toNat = 2 ^ 52 * (d * 2 ^ e0.toNat) by ring]
    exact_mod_cast Iff.rfl
  set e1 : ℤ := if n * 2 ^ (-e0).toNat < d * 2 ^ 52 * 2 ^ e0.toNat then e0 - 1 else e0 with he1
  have hval : F64.roundExp n d = max e1 (-1074) := rfl
  have h1up : (n : ℝ) / d * (2 : ℝ) ^ (-e1) < 2 ^ 53 := by
    rw [he1]
    split
    case isTrue h =>
      rw [show (-(e0 - 1) : ℤ) = -e0 + 1 by ring, zpow_add₀ (by norm_num), zpow_one]
      have := htest.1 h
      nlinarith
    case isFalse h => exact hup
  have h1low : (2 : ℝ) ^ 52 ≤ (n : ℝ) / d * (2 : ℝ) ^ (-e1) := by
    rw [he1]
    split
    case isTrue h =>
      rw [show (-(e0 - 1) : ℤ) = -e0 + 1 by ring, zpow_add₀ (by norm_num), zpow_one]
      nlinarith
    case isFalse h => exact not_lt.1 (fun hc => h (htest.2 hc))
  rw [hval]
  refine ⟨le_max_right _ _, ?_, ?_⟩
  · refine lt_of_le_of_lt ?_ h1up
    apply mul_le_mul_of_nonneg_left _ hx0.le
    exact zpow_le_zpow_right₀ (by norm_num) (by omega)
  · rcases le_total e1 (-1074) with h | h
    · exact .inl (max_eq_right h)
    · rw [max_eq_left h]
      exact .inr h1low

/-! ## Correct rounding -/

/-- On a scale `2^e` that is fine enough for `X`, the significand nearest to `X` is at least as near to it as any number a
finite pattern can stand for, and where another is as near it is even. -/
theorem F64.nearest_on_scale {X : ℝ} (hX0 : 0 < X) {e : ℤ} (hlow : e = -1074 ∨ (2 : ℝ) ^ 52 ≤ X * (2 : ℝ) ^ (-e)) {m : Nat}
    (hnear : |(m : ℝ) - X * (2 : ℝ) ^ (-e)| ≤ 1 / 2)
    (htie : |(m : ℝ) - X * (2 : ℝ) ^ (-e)| = 1 / 2 → m % 2 = 0) {w : ℝ} {M : Nat} {F : ℤ}
    (hM : M < 2 ^ 53) (hF : -1074 ≤ F) (hw : |w| = (M : ℝ) * (2 : ℝ) ^ F) :
    |(m : ℝ) * (2 : ℝ) ^ e - X| ≤ |w - X| ∧
    (|(m : ℝ) * (2 : ℝ) ^ e - X| = |w - X| → w = (m : ℝ) * (2 : ℝ) ^ e ∨ m % 2 = 0) := by
  have h2e : (0 : ℝ) < (2 : ℝ) ^ e := by positivity
  -- integers on the scale
  have hint : ∀ k : ℤ, |(m : ℝ) * (2 : ℝ) ^ e - X| ≤ |(k : ℝ) * (2 : ℝ) ^ e - X| ∧
      (|(m : ℝ) * (2 : ℝ) ^ e - X| = |(k : ℝ) * (2 : ℝ) ^ e - X| → k = m ∨ m % 2 = 0) := by
    intro k
    have hb := F64.nearest_integer hnear htie k
    have hs : ∀ z : ℝ, |z * (2 : ℝ) ^ e - X| = |z - X * (2 : ℝ) ^ (-e)| * (2 : ℝ) ^ e := by
      intro z
      have h1 : (z - X * (2 : ℝ) ^ (-e)) * (2 : ℝ) ^ e = z * (2 : ℝ) ^ e - X := by
        rw [sub_mul, mul_assoc, ← zpow_add₀ (by norm_num)]
        simp
      rw [← h1, abs_mul, abs_of_pos h2e]
    rw [hs, hs]
    exact ⟨mul_le_mul_of_nonneg_right hb.1 h2e.le, fun h => hb.2 (mul_right_cancel₀ h2e.ne' h)⟩
  rcases lt_or_ge w 0 with hneg | hpos
  · have h0 := (hint 0).1
    rw [Int.cast_zero, zero_mul, zero_sub, abs_neg, abs_of_pos hX0] at h0
    have h1 : |w - X| = X - w := by rw [abs_of_neg (by linarith)]; ring
    rw [h1]
    exact ⟨by linarith, fun h => by linarith⟩
  · rw [abs_of_nonneg hpos] at hw
    rcases le_or_gt e F with hle | hlt
    · obtain ⟨j, hj⟩ := Int.eq_ofNat_of_zero_le (show 0 ≤ F - e by omega)
      have hwk : w = ((M * 2 ^ j : ℕ) : ℤ) * (2 : ℝ) ^ e := by
        rw [hw, show F = j + e by omega, zpow_add₀ (by norm_num), zpow_natCast]
        push_cast
        ring
      have h1 := hint ((M * 2 ^ j : ℕ) : ℤ)
      rw [← hwk] at h1
      refine ⟨h1.1, fun h => (h1.2 h).imp_left fun hk => ?_⟩
      rw [hwk, hk]
      norm_cast
    · have hlow' : (2 : ℝ) ^ 52 ≤ X * (2 : ℝ) ^ (-e) := by
        rcases hlow with h | h
        · omega
        · exact h
      have h1 : (2 : ℝ) ^ 52 * (2 : ℝ) ^ e ≤ X := by
        have := mul_le_mul_of_nonneg_right hlow' h2e.le
        rwa [mul_assoc X, ← zpow_add₀ (by norm_num), neg_add_cancel, zpow_zero, mul_one] at this
      have h2 : w < (2 : ℝ) ^ 52 * (2 : ℝ) ^ e := by
        have hM' : (M : ℝ) < 2 ^ 53 := by exact_mod_cast hM
        have hFp : (0 : ℝ) < (2 : ℝ) ^ F := by positivity
        have h3 : (2 : ℝ) ^ F ≤ (2 : ℝ) ^ (e - 1) := zpow_le_zpow_right₀ (by norm_num) (by omega)
        rw [zpow_sub₀ (by norm_num), zpow_one] at h3
        rw [hw]
        calc (M : ℝ) * (2 : ℝ) ^ F < 2 ^ 53 * (2 : ℝ) ^ F := mul_lt_mul_of_pos_right hM' hFp
          _ ≤ 2 ^ 53 * ((2 : ℝ) ^ e / 2) := mul_le_mul_of_nonneg_left h3 (by norm_num)
          _ = 2 ^ 52 * (2 : ℝ) ^ e := by ring
      have h3 := (hint (2 ^ 52 : ℕ)).1
      have h4 : |(((2 ^ 52 : ℕ) : ℤ) : ℝ) * (2 : ℝ) ^ e - X| = X - (2 : ℝ) ^ 52 * (2 : ℝ) ^ e := by
        have : (((2 ^ 52 : ℕ) : ℤ) : ℝ) = (2 : ℝ) ^ 52 := by norm_cast
        rw [this, abs_of_nonpos (by linarith)]
        ring
      rw [h4] at h3
      have h5 : |w - X| = X - w := by rw [abs_of_neg (by linarith)]; ring
      rw [h5]
      exact ⟨by linarith, fun h => by linarith⟩

/-- The overflow limit on the scale of the largest exponent. -/
theorem F64.overflow_limit : (2 : ℝ) ^ 1024 - (2 : ℝ) ^ 970 = ((2 : ℝ) ^ 53 - 1 / 2) * (2 : ℝ) ^ (971 : ℤ) := by
  have h1 : (2 : ℝ) ^ 1024 = 2 ^ 54 * 2 ^ 970 := by rw [← pow_add]
  have h2 : (2 : ℝ) ^ (971 : ℤ) = 2 * 2 ^ 970 := by rw [show (971 : ℤ) = ((971 : ℕ) : ℤ) by rfl, zpow_natCast, pow_succ']
  rw [h1, h2]
  generalize (2 : ℝ) ^ 970 = A
  ring

/-- A number with sign `s` and size `X > 0` is correctly rounded by the significand nearest to `X` on a scale that is fine
enough for it: to the pattern with that significand, or past the largest finite number to an infinity. -/
theorem F64.rounds_on_scale (s : Bool) {X : ℝ} (hX0 : 0 < X) {e : ℤ} (he0 : -1074 ≤ e)
    (hup : X * (2 : ℝ) ^ (-e) < 2 ^ 53) (hlow : e = -1074 ∨ (2 : ℝ) ^ 52 ≤ X * (2 : ℝ) ^ (-e)) {m : Nat}
    (hnear : |(m : ℝ) - X * (2 : ℝ) ^ (-e)| ≤ 1 / 2)
    (htie : |(m : ℝ) - X * (2 : ℝ) ^ (-e)| = 1 / 2 → m % 2 = 0) :
    F64.Rounds ((if s then -1 else 1) * X)
      (if (e + 1074).toNat * 2 ^ 52 + m < 2047 * 2 ^ 52 then F64.ofBits s ((e + 1074).toNat * 2 ^ 52 + m)
        else F64.inf s) := by
  have h2e : (0 : ℝ) < (2 : ℝ) ^ e := by positivity
  have hE : (((e + 1074).toNat : ℕ) : ℤ) - 1074 = e := by omega
  have hscale := fun {w : ℝ} {M : Nat} {F : ℤ} => F64.nearest_on_scale (w := w) (M := M) (F := F) hX0 hlow hnear htie
  set x' := X * (2 : ℝ) ^ (-e) with hx'
  have hXx : X = x' * (2 : ℝ) ^ e := by
    rw [hx', mul_assoc, ← zpow_add₀ (by norm_num), neg_add_cancel, zpow_zero, mul_one]
  obtain ⟨hn1, hn2⟩ := abs_le.1 hnear
  have hm53 : m ≤ 2 ^ 53 := by
    have h1 : (m : ℝ) < ((2 ^ 53 + 1 : ℕ) : ℝ) := by push_cast; linarith
    have h2 : m < 2 ^ 53 + 1 := by exact_mod_cast h1
    omega
  have hm52 : (e + 1074).toNat = 0 ∨ 2 ^ 52 ≤ m := by
    rcases hlow with h | h
    · left; omega
    · right
      have h1 : ((2 ^ 52 : ℕ) : ℝ) < ((m + 1 : ℕ) : ℝ) := by push_cast; linarith
      have h2 : 2 ^ 52 < m + 1 := by exact_mod_cast h1
      omega
  have habs : |(if s then -1 else 1) * X| = X := by
    cases s <;> simp [abs_of_pos hX0]
  have hlimit := F64.overflow_limit
  rw [F64.Rounds, habs]
  by_cases hb : (e + 1074).toNat * 2 ^ 52 + m < 2047 * 2 ^ 52
  · rw [if_pos hb]
    have hin : X < (2 : ℝ) ^ 1024 - (2 : ℝ) ^ 970 := by
      rw [hlimit]
      rcases lt_or_ge e 971 with h | h
      · have h3 : (2 : ℝ) ^ e ≤ (2 : ℝ) ^ (971 - 1 : ℤ) := zpow_le_zpow_right₀ (by norm_num) (by omega)
        rw [zpow_sub₀ (by norm_num), zpow_one] at h3
        have h4 : (0 : ℝ) < (2 : ℝ) ^ (971 : ℤ) := by positivity
        rw [hXx]
        have h5 : x' * (2 : ℝ) ^ e < 2 ^ 53 * (2 : ℝ) ^ e := mul_lt_mul_of_pos_right hup h2e
        clear hlimit
        generalize (2 : ℝ) ^ (971 : ℤ) = B at h3 h4 ⊢
        generalize (2 : ℝ) ^ e = C at h3 h5 ⊢
        linarith
      · have he971 : e = 971 := by omega
        have hmlt : m < 2 ^ 53 := by omega
        have hx53 : x' < 2 ^ 53 - 1 / 2 := by
          have h1 : ((m + 1 : ℕ) : ℝ) ≤ ((2 ^ 53 : ℕ) : ℝ) := by exact_mod_cast hmlt
          push_cast at h1
          rcases lt_or_ge x' (2 ^ 53 - 1 / 2) with h | h
          · exact h
          · have h2 : (m : ℝ) = 2 ^ 53 - 1 := by linarith
            have h3 : m = 2 ^ 53 - 1 := by
              have : ((m + 1 : ℕ) : ℝ) = ((2 ^ 53 : ℕ) : ℝ) := by push_cast; linarith
              have : m + 1 = 2 ^ 53 := by exact_mod_cast this
              omega
            have h4 := htie (by rw [abs_of_nonpos (by linarith)]; linarith)
            omega
        rw [hXx, he971]
        exact mul_lt_mul_of_pos_right hx53 (by positivity)
    rw [if_pos hin]
    refine ⟨F64.finite_ofBits s hb, fun y _ => ?_⟩
    have hr := F64.toReal_ofBits s hm53 hm52 hb
    rw [hE] at hr
    have hfrac : F64.frac (F64.ofBits s ((e + 1074).toNat * 2 ^ 52 + m)) % 2 = m % 2 := by
      rw [F64.frac_eq, F64.mag_ofBits s (by omega)]
      omega
    rw [hr, hfrac]
    have hpat := F64.abs_toReal y
    cases s
    · have h := hscale (F64.mant_lt y) (F64.expo_ge y) hpat
      simpa using h
    · have hpat' : |-(F64.toReal y)| = (F64.mant y : ℝ) * (2 : ℝ) ^ F64.expo y := by rw [abs_neg]; exact hpat
      have h := hscale (F64.mant_lt y) (F64.expo_ge y) hpat'
      have h1 : ∀ z : ℝ, |-z - X| = |z - -1 * X| := fun z => by
        rw [show -z - X = -(z - -1 * X) by ring, abs_neg]
      have h2 : |(m : ℝ) * (2 : ℝ) ^ e - X| = |-1 * (m : ℝ) * (2 : ℝ) ^ e - -1 * X| := by
        rw [show (m : ℝ) * (2 : ℝ) ^ e - X = -(-1 * (m : ℝ) * (2 : ℝ) ^ e - -1 * X) by ring, abs_neg]
      rw [h1, h2] at h
      simp only [if_true]
      refine ⟨h.1, fun hh => (h.2 hh).imp_left fun h3 => ?_⟩
      linarith
  · rw [if_neg hb]
    have hout : (2 : ℝ) ^ 1024 - (2 : ℝ) ^ 970 ≤ X := by
      rw [hlimit]
      have he971 : 971 ≤ e := by omega
      rcases eq_or_lt_of_le he971 with h | h
      · have hm' : m = 2 ^ 53 := by omega
        have h1 : (m : ℝ) = 2 ^ 53 := by rw [hm']; norm_num
        rw [hXx, ← h]
        exact mul_le_mul_of_nonneg_right (by linarith) (by positivity)
      · have h1 : (2 : ℝ) ^ 52 ≤ x' := by
          rcases hlow with h' | h'
          · omega
          · exact h'
        have h3 : (2 : ℝ) ^ (971 + 1 : ℤ) ≤ (2 : ℝ) ^ e := zpow_le_zpow_right₀ (by norm_num) (by omega)
        rw [zpow_add₀ (by norm_num), zpow_one] at h3
        have h4 : (0 : ℝ) < (2 : ℝ) ^ (971 : ℤ) := by positivity
        rw [hXx]
        clear hlimit
        have h5 := mul_le_mul_of_nonneg_right h1 h2e.le
        generalize (2 : ℝ) ^ (971 : ℤ) = B at h3 h4 ⊢
        generalize (2 : ℝ) ^ e = C at h3 h5 ⊢
        linarith
    rw [if_neg (not_lt.2 hout)]
    congr 1
    cases s
    · simp [hX0.le]
    · simp [hX0]

/-- A zero of either sign is zero correctly rounded. -/
theorem F64.rounds_zero (s : Bool) : F64.Rounds 0 (F64.ofBits s 0) := by
  have hlim : (0 : ℝ) < (2 : ℝ) ^ 1024 - (2 : ℝ) ^ 970 := sub_pos.2 (pow_lt_pow_right₀ (by norm_num) (by norm_num))
  have h0 : F64.toReal (F64.ofBits s (0 * 2 ^ 52 + 0)) = 0 := by
    rw [F64.toReal_ofBits s (by norm_num) (.inl rfl) (by norm_num)]
    simp
  have h1 : F64.toReal (F64.ofBits s 0) = 0 := h0
  rw [F64.Rounds, abs_zero, if_pos hlim]
  refine ⟨F64.finite_ofBits s (by norm_num), fun y _ => ?_⟩
  simp only [sub_zero, h1, abs_zero]
  exact ⟨abs_nonneg _, fun h => .inl (abs_eq_zero.1 h.symm)⟩

/-- `roundFrac` gives the correctly rounded number of a fraction with a sign (R9). -/
theorem F64.roundFrac_rounds (s : Bool) (n : Nat) {d : Nat} (hd : 0 < d) :
    F64.Rounds ((if s then -1 else 1) * ((n : ℝ) / d)) (F64.roundFrac s n d) := by
  rcases Nat.eq_zero_or_pos n with rfl | hn
  · rw [Nat.cast_zero, zero_div, mul_zero, F64.roundFrac, if_pos rfl]
    exact F64.rounds_zero s
  obtain ⟨he0, hup, hlow⟩ := F64.roundExp_spec hn hd
  rw [F64.roundFrac, if_neg hn.ne']
  simp only
  have hX0 : 0 < (n : ℝ) / d := by
    have h1 : (0 : ℝ) < n := by exact_mod_cast hn
    have h2 : (0 : ℝ) < d := by exact_mod_cast hd
    positivity
  obtain ⟨hnear, htie⟩ := F64.nearestEven_near (n * 2 ^ (-F64.roundExp n d).toNat)
    (show 0 < d * 2 ^ (F64.roundExp n d).toNat by positivity)
  rw [F64.scale_frac] at hnear htie
  exact F64.rounds_on_scale s hX0 he0 hup hlow hnear htie

/-! ## Order by magnitude -/

/-- A larger magnitude is a larger number. -/
theorem F64.magReal_strictMono : StrictMono F64.magReal := by
  apply strictMono_nat_of_lt_succ
  intro b
  obtain ⟨E, m, hb, hm, hE⟩ : ∃ E m, b = E * 2 ^ 52 + m ∧ m < 2 ^ 53 ∧ (E = 0 ∨ 2 ^ 52 ≤ m) := by
    refine ⟨b / 2 ^ 52 - 1, b - (b / 2 ^ 52 - 1) * 2 ^ 52, ?_, ?_, ?_⟩ <;> omega
  rw [hb, show E * 2 ^ 52 + m + 1 = E * 2 ^ 52 + (m + 1) by omega, F64.magReal_form (by omega) hE,
    F64.magReal_form (by omega) (by omega)]
  have : (0:ℝ) < (2 : ℝ) ^ ((E : ℤ) - 1074) := by positivity
  push_cast
  nlinarith

/-- The magnitude of a zero. -/
theorem F64.magReal_zero : F64.magReal 0 = 0 := by simp [F64.magReal]

/-- No magnitude is negative. -/
theorem F64.magReal_nonneg (n : Nat) : 0 ≤ F64.magReal n := by
  rw [← F64.magReal_zero]
  exact F64.magReal_strictMono.monotone (Nat.zero_le _)

/-- A number by its place in the order. -/
theorem F64.toReal_eq_key (x : F64) : F64.toReal x =
    if 0 ≤ F64.key x then F64.magReal (F64.key x).toNat else -F64.magReal (-F64.key x).toNat := by
  rw [F64.toReal_eq_magReal, F64.key]
  cases F64.neg x
  · simp
  · rcases Nat.eq_zero_or_pos (F64.mag x) with h | h
    · simp [h, F64.magReal_zero]
    · rw [if_pos rfl, if_pos rfl, if_neg (by omega), neg_neg, Int.toNat_natCast, neg_one_mul]

/-! ## Exact results as fractions -/

/-- `scaled` is exact. -/
theorem F64.scaled_mul (x : F64) {e : ℤ} (h : e ≤ F64.expo x) : (F64.scaled x e : ℝ) * (2:ℝ) ^ e = F64.toReal x := by
  obtain ⟨k, hk⟩ := Int.eq_ofNat_of_zero_le (show 0 ≤ F64.expo x - e by omega)
  rw [F64.scaled, F64.toReal, hk, show F64.expo x = k + e by omega, zpow_add₀ (by norm_num)]
  cases F64.neg x <;> simp <;> ring

/-- Scaling a fraction by a power of two, the other way round. -/
theorem F64.scale_frac_up (n d : Nat) (e : ℤ) :
    ((n * 2 ^ e.toNat : ℕ) : ℝ) / ((d * 2 ^ (-e).toNat : ℕ) : ℝ) = (n : ℝ) / d * (2 : ℝ) ^ e := by
  have := F64.scale_frac n d (-e)
  simpa using this

/-- Scaling a natural number by a power of two. -/
theorem F64.scale_nat (n : Nat) (e : ℤ) :
    ((n * 2 ^ e.toNat : ℕ) : ℝ) / ((2 ^ (-e).toNat : ℕ) : ℝ) = (n : ℝ) * (2 : ℝ) ^ e := by
  have := F64.scale_frac_up n 1 e
  simpa using this

/-- The other sign, on the pattern as a number. -/
theorem F64.negate_toNat (x : F64) : (F64.negate x).toNat = if F64.neg x then x.toNat - 2 ^ 63 else x.toNat + 2 ^ 63 := by
  rw [F64.negate, F64.neg]
  rw [BitVec.toNat_xor]
  have h1 := Nat.xor_mod_two_pow (a := x.toNat) (b := 2 ^ 63) (n := 63)
  have h2 := Nat.xor_div_two_pow (a := x.toNat) (b := 2 ^ 63) (n := 63)
  have h3 := x.isLt
  rw [Nat.mod_self, Nat.xor_zero] at h1
  rw [Nat.div_self (by norm_num)] at h2
  have h4 : (0x8000000000000000#64).toNat = 2 ^ 63 := rfl
  rw [h4]
  generalize x.toNat ^^^ 2 ^ 63 = y at *
  by_cases h : 2 ^ 63 ≤ x.toNat
  · have h5 : x.toNat / 2 ^ 63 = 1 := by omega
    rw [h5, Nat.xor_self] at h2
    simp only [h, decide_true, if_true]
    omega
  · have h5 : x.toNat / 2 ^ 63 = 0 := by omega
    rw [h5, Nat.zero_xor] at h2
    simp only [h, decide_false, Bool.false_eq_true, if_false]
    omega

/-- `negate` turns the sign and nothing else. -/
theorem F64.negate_spec (x : F64) : F64.toReal (F64.negate x) = - F64.toReal x ∧ F64.finite (F64.negate x) = F64.finite x := by
  have hm : F64.mag (F64.negate x) = F64.mag x := by
    rw [F64.mag, F64.mag, F64.negate_toNat, F64.neg]
    have := x.isLt
    split <;> simp at * <;> omega
  have hn : F64.neg (F64.negate x) = !F64.neg x := by
    rw [F64.neg, F64.negate_toNat]
    have := x.isLt
    rcases hx : F64.neg x <;> rw [F64.neg] at hx <;> simp at * <;> omega
  rw [F64.toReal_eq_magReal, F64.toReal_eq_magReal, hm, hn, F64.finite, F64.finite, hm]
  cases F64.neg x <;> simp

/-! ## The integer square root -/

/-- `isqrt` finds the integer root where it lies within reach. -/
theorem F64.isqrt_spec (n : Nat) : ∀ k r, r * r ≤ n → n < (r + 2 ^ k) * (r + 2 ^ k) →
    let q := F64.isqrt n k r; q * q ≤ n ∧ n < (q + 1) * (q + 1) ∧ r ≤ q
  | 0, r, h1, h2 => by simpa [F64.isqrt] using ⟨h1, h2⟩
  | k + 1, r, h1, h2 => by
    simp only [F64.isqrt]
    split
    case isTrue h =>
      have := F64.isqrt_spec n k _ h (by rwa [show r + 2 ^ k + 2 ^ k = r + 2 ^ (k + 1) by ring])
      refine ⟨this.1, this.2.1, ?_⟩
      have := this.2.2
      have h2 : 0 < 2 ^ k := by positivity
      omega
    case isFalse h =>
      exact F64.isqrt_spec n k _ h1 (not_le.1 h)

/-- `isqrt` stays within its reach. -/
theorem F64.isqrt_lt (n : Nat) : ∀ k r, F64.isqrt n k r < r + 2 ^ k
  | 0, r => by simp [F64.isqrt]
  | k + 1, r => by
    simp only [F64.isqrt]
    have h2 : 2 ^ (k+1) = 2 ^ k + 2 ^ k := by ring
    have h3 : 0 < 2 ^ k := by positivity
    split
    · have := F64.isqrt_lt n k (r + 2 ^ k); omega
    · have := F64.isqrt_lt n k r; omega

/-- The rounding of the root is to nearest, and never a tie. -/
theorem F64.near_sqrt {n r m : Nat} (hr1 : r * r ≤ n) (hr2 : n < (r + 1) * (r + 1)) (hmdef : m = if r * r + r < n then r + 1 else r) :
    |(m:ℝ) - Real.sqrt n| < 1/2 := by
  have hs0 := Real.sqrt_nonneg (n:ℝ)
  have hs2 : Real.sqrt n * Real.sqrt n = n := Real.mul_self_sqrt (by positivity)
  have hr1' : (r:ℝ) * r ≤ n := by exact_mod_cast hr1
  have hr2' : (n:ℝ) < (r + 1) * (r + 1) := by exact_mod_cast hr2
  have ha : (r:ℝ) ≤ Real.sqrt n := by
    apply Real.le_sqrt_of_sq_le; nlinarith
  have hb : Real.sqrt n < r + 1 := by
    rw [Real.sqrt_lt' (by positivity)]; nlinarith
  rw [hmdef, abs_lt]
  split
  case isTrue hc =>
    have hc' : (r:ℝ) * r + r + 1 ≤ n := by exact_mod_cast hc
    push_cast
    constructor
    · linarith
    · nlinarith
  case isFalse hc =>
    have hc' : (n:ℝ) ≤ r * r + r := by exact_mod_cast not_lt.1 hc
    constructor
    · nlinarith
    · linarith

/-! ## Rounding is monotone -/

/-- A number of at most `2^1000` is far from overflow. -/
theorem F64.in_range {x : ℝ} (h : |x| ≤ 2 ^ 1000) : |x| < (2:ℝ) ^ 1024 - 2 ^ 970 := by
  have h1 : (2:ℝ) ^ 1024 = 2 ^ 54 * 2 ^ 970 := by rw [← pow_add]
  have h2 : (2:ℝ) ^ 1000 = 2 ^ 30 * 2 ^ 970 := by rw [← pow_add]
  rw [h1]; rw [h2] at h
  have : (0:ℝ) < 2 ^ 970 := by positivity
  clear h1 h2
  generalize (2:ℝ) ^ 970 = A at *
  nlinarith

/-- A rounded number is not below a pattern that the exact one is not below. -/
theorem F64.rounds_ge {x : ℝ} {r y : F64} (h : F64.Rounds x r) (hl : |x| ≤ 2 ^ 1000) (hy : F64.finite y = true)
    (hyx : F64.toReal y ≤ x) :
   F64.toReal y ≤ F64.toReal r := by
  rw [F64.Rounds, if_pos (F64.in_range hl)] at h
  have h1 := (h.2 y hy).1
  rw [abs_of_nonpos (by linarith : F64.toReal y - x ≤ 0)] at h1
  have := neg_abs_le (F64.toReal r - x)
  linarith

/-- A rounded number is not above a pattern that the exact one is not above. -/
theorem F64.rounds_le {x : ℝ} {r y : F64} (h : F64.Rounds x r) (hl : |x| ≤ 2 ^ 1000) (hy : F64.finite y = true)
    (hyx : x ≤ F64.toReal y) :
   F64.toReal r ≤ F64.toReal y := by
  rw [F64.Rounds, if_pos (F64.in_range hl)] at h
  have h1 := (h.2 y hy).1
  rw [abs_of_nonneg (by linarith : 0 ≤ F64.toReal y - x)] at h1
  have := le_abs_self (F64.toReal r - x)
  linarith

/-- Every natural number below `2^53` is some pattern. -/
theorem F64.exists_nat (n : Nat) (hn : n < 2 ^ 53) : ∃ y : F64, F64.finite y = true ∧ F64.toReal y = n := by
  rcases Nat.eq_zero_or_pos n with rfl | h0
  · refine ⟨F64.ofBits false 0, F64.finite_ofBits _ (by norm_num), ?_⟩
    rw [F64.toReal_eq_magReal, F64.mag_ofBits _ (by norm_num), F64.magReal_zero]; simp
  set l := Nat.log2 n with hl
  have hl1 : 2 ^ l ≤ n := Nat.log2_self_le h0.ne'
  have hl2 : n < 2 ^ (l + 1) := Nat.lt_log2_self
  have hl3 : l < 53 := (Nat.log2_lt h0.ne').2 hn
  set m := n * 2 ^ (52 - l) with hm
  have hm1 : 2 ^ 52 ≤ m := by
    calc 2 ^ 52 = 2 ^ l * 2 ^ (52 - l) := by rw [← pow_add]; congr 1; omega
      _ ≤ m := Nat.mul_le_mul_right _ hl1
  have hm2 : m < 2 ^ 53 := by
    calc m < 2 ^ (l + 1) * 2 ^ (52 - l) := Nat.mul_lt_mul_of_pos_right hl2 (by positivity)
      _ = 2 ^ 53 := by rw [← pow_add]; congr 1; omega
  have hb : (1022 + l) * 2 ^ 52 + m < 2047 * 2 ^ 52 := by omega
  refine ⟨F64.ofBits false ((1022 + l) * 2 ^ 52 + m), F64.finite_ofBits _ hb, ?_⟩
  rw [F64.toReal_ofBits false hm2.le (.inr hm1) hb, hm]
  have : (((1022 + l : ℕ) : ℤ) - 1074) = -((52 - l : ℕ) : ℤ) := by omega
  rw [this, zpow_neg, zpow_natCast]
  push_cast
  field_simp

/-! ## Not a number -/

/-- What an operation gives as a NaN is one, whatever its free bits are. -/
theorem F64.isNaN_nan (n : Nat) (a b : F64) : F64.isNaN (F64.nan n a b) = true := by
  rw [F64.isNaN, decide_eq_true_eq, F64.mag, F64.nan, BitVec.toNat_or, Nat.or_mod_two_pow]
  exact lt_of_lt_of_le (by decide) Nat.right_le_or

end Sys2Proof.Machine
end

