-- ==== Sys2Proof/Laws/Generator.lean ====
section
/-! SUPPORT. The recursions of the generator and the detector, one equation per case, and what a wrap gives. -/

namespace Sys2Proof.Machine

variable {R : Type} (N : Num R)

theorem advance_zero (ph : R) : advance N 0 ph = some ph := rfl

theorem advance_active {f : Word} (h : f ≠ 0) (ph : R) : advance N f ph = wrap N (N.add ph (incr N f)) := if_neg h

theorem term_zero (V : Nat) (ph : R) : term N V 0 ph = 0 := rfl

theorem term_active {f : Word} (h : f ≠ 0) (V : Nat) (ph : R) :
    term N V f ph = N.round (N.mul (N.sin ph) (N.ofInt V)) := if_neg h

/-- Both phases advance exactly when each does. -/
theorem advanceBoth_eq_some {fLo fHi : Word} {ph q : Phases R} :
    advanceBoth N fLo fHi ph = some q ↔ advance N fLo ph.lo = some q.lo ∧ advance N fHi ph.hi = some q.hi := by
  rw [advanceBoth]
  cases advance N fLo ph.lo <;> cases advance N fHi ph.hi <;> cases q <;> simp

/-- One sample of a `RENDER` that completes (R111). -/
theorem render_succ_eq_some {p : Params} {fLo fHi : Word} {n : Nat} {ph q : Phases R} {xs : List Sample} :
    render N p fLo fHi (n + 1) ph = some (xs, q) ↔
      ∃ ph' ys, advanceBoth N fLo fHi ph = some ph' ∧ render N p fLo fHi n ph' = some (ys, q) ∧
        xs = trunc16 p.ovf (sampleSum N p.volume fLo fHi ph) :: ys := by
  rw [render]
  cases ha : advanceBoth N fLo fHi ph with
  | none => simp
  | some ph' =>
    cases hr : render N p fLo fHi n ph' with
    | none => simp [hr]
    | some r =>
      obtain ⟨ys, q'⟩ := r
      simp only [hr, Option.some.injEq, Prod.mk.injEq]
      constructor
      · rintro ⟨rfl, rfl⟩
        exact ⟨ph', ys, rfl, hr, rfl⟩
      · rintro ⟨p2, ys2, rfl, h2, rfl⟩
        rw [hr, Option.some.injEq, Prod.mk.injEq] at h2
        obtain ⟨rfl, rfl⟩ := h2
        exact ⟨rfl, rfl⟩

/-- A `RENDER` that completes gives as many samples as it was asked for (R111). -/
theorem render_length {p : Params} {fLo fHi : Word} : ∀ {n : Nat} {ph q : Phases R} {xs : List Sample},
    render N p fLo fHi n ph = some (xs, q) → xs.length = n
  | 0, ph, q, xs, h => by
    rw [render, Option.some.injEq, Prod.mk.injEq] at h
    rw [← h.1, List.length_nil]
  | n + 1, ph, q, xs, h => by
    obtain ⟨ph', ys, -, hr, rfl⟩ := (render_succ_eq_some N).1 h
    rw [List.length_cons, render_length hr]

/-- A value below 2π is left alone, by any number of passes. -/
theorem wrapLoop_below {p : R} (h : N.lt p N.twoPi = true) (n : Nat) : wrapLoop N n p = some p := by
  cases n <;> simp [wrapLoop, Num.ge, h]

/-- A value not below 2π is taken one turn down. -/
theorem wrapLoop_above {p : R} (h : N.lt p N.twoPi = false) (n : Nat) :
    wrapLoop N (n + 1) p = wrapLoop N n (N.sub p N.twoPi) := by
  simp [wrapLoop, Num.ge, h]

/-- What a loop that ends gives is below 2π. -/
theorem wrapLoop_lt : ∀ {n : Nat} {p q : R}, wrapLoop N n p = some q → N.lt q N.twoPi = true
  | n, p, q, h => by
    cases hl : N.lt p N.twoPi with
    | true =>
      rw [wrapLoop_below N hl, Option.some.injEq] at h
      rw [← h]
      exact hl
    | false =>
      cases n with
      | zero => simp [wrapLoop, Num.ge, hl] at h
      | succ n =>
        rw [wrapLoop_above N hl] at h
        exact wrapLoop_lt h

/-- A value from which nothing can be taken away keeps the loop going for good. -/
theorem wrapLoop_stuck {p : R} (h : N.lt p N.twoPi = false) (hs : N.sub p N.twoPi = p) (n : Nat) : wrapLoop N n p = none := by
  induction n with
  | zero => simp [wrapLoop, Num.ge, h]
  | succ n ih => rw [wrapLoop_above N h, hs, ih]

/-- A loop that ends within some number of passes ends with that value. -/
theorem wrapWhile_of_wrapLoop : ∀ {n : Nat} {p q : R}, wrapLoop N n p = some q → wrapWhile N p = some q
  | n, p, q, h => by
    rw [wrapWhile]
    cases hl : N.lt p N.twoPi with
    | true => simpa [Num.ge, hl, wrapLoop_below N hl] using h
    | false =>
      cases n with
      | zero => simp [wrapLoop, Num.ge, hl] at h
      | succ n =>
        rw [wrapLoop_above N hl] at h
        simpa [Num.ge, hl] using wrapWhile_of_wrapLoop h

/-- A loop that ends does so after some number of passes. -/
theorem wrapsTo_of_wrapWhile : ∀ p q : R, wrapWhile N p = some q → WrapsTo N p q := by
  refine wrapWhile.partial_correctness N (WrapsTo N) fun f ih p q h => ?_
  cases hl : N.lt p N.twoPi with
  | true =>
    simp only [Num.ge, hl] at h
    exact ⟨0, by rw [wrapLoop_below N hl]; simpa using h⟩
  | false =>
    simp only [Num.ge, hl] at h
    obtain ⟨n, hn⟩ := ih _ _ (by simpa using h)
    exact ⟨n + 1, by rw [wrapLoop_above N hl, hn]⟩

/-- The passes that `wrap` tries first change nothing: it is the loop of R113. -/
theorem wrap_eq_wrapWhile (p : R) : wrap N p = wrapWhile N p := by
  rw [wrap]
  cases h : wrapLoop N (wrapPasses N p) p with
  | none => rfl
  | some q => rw [wrapWhile_of_wrapLoop N h]

/-- A value from which nothing can be taken away has no `wrap`. -/
theorem wrap_stuck {p : R} (h : N.lt p N.twoPi = false) (hs : N.sub p N.twoPi = p) : wrap N p = none := by
  rw [wrap_eq_wrapWhile, Option.eq_none_iff_forall_ne_some]
  intro q hq
  obtain ⟨n, hn⟩ := wrapsTo_of_wrapWhile N p q hq
  rw [wrapLoop_stuck N h hs] at hn
  cases hn

/-- What a loop that ends after any number of passes gives is below 2π. -/
theorem wrapsTo_lt {p q : R} (h : WrapsTo N p q) : N.lt q N.twoPi = true := h.elim fun _ => wrapLoop_lt N

/-- `DETECTALL` of a block of at least one sample completes (R105). -/
theorem detectAll_of_ne_nil {xs : List Sample} (h : xs ≠ []) : ∃ v, detectAll N xs = some v := by
  rw [detectAll, if_neg (by simpa using h)]
  exact ⟨_, rfl⟩

/-- The recurrence over two blocks in a row is the recurrence over their concatenation (R91). -/
theorem goertzel_append (c : R) (xs ys : List Sample) : ∀ q : Scratch R,
    goertzel N c (xs ++ ys) q = goertzel N c ys (goertzel N c xs q) := by
  induction xs with
  | nil => exact fun _ => rfl
  | cons x xs ih => exact fun q => ih _

end Sys2Proof.Machine
end

