-- ==== Sys2Proof/Laws/Ideal.lean ====
section
/-! SUPPORT. The fields of `IDEAL` as the mathematical functions they are (R9), so that no proof unfolds the record. -/

namespace Sys2Proof.Machine

@[simp] theorem ideal_ofInt (n : Int) : ideal.ofInt n = (n : ℝ) := rfl
@[simp] theorem ideal_add (a b : ℝ) : ideal.add a b = a + b := rfl
@[simp] theorem ideal_sub (a b : ℝ) : ideal.sub a b = a - b := rfl
@[simp] theorem ideal_mul (a b : ℝ) : ideal.mul a b = a * b := rfl
@[simp] theorem ideal_div (a b : ℝ) : ideal.div a b = a / b := rfl
@[simp] theorem ideal_sin (a : ℝ) : ideal.sin a = Real.sin a := rfl
@[simp] theorem ideal_cos (a : ℝ) : ideal.cos a = Real.cos a := rfl
@[simp] theorem ideal_sqrt (a : ℝ) : ideal.sqrt a = Real.sqrt a := rfl
@[simp] theorem ideal_twoPi : ideal.twoPi = 2 * Real.pi := rfl
@[simp] theorem ideal_round (a : ℝ) : ideal.round a = idealRound a := rfl

@[simp] theorem ideal_zero : ideal.zero = 0 := by
  change ((0 : Int) : ℝ) = 0
  exact Int.cast_zero

@[simp] theorem ideal_lt (a b : ℝ) : ideal.lt a b = true ↔ a < b := by
  change decide (a < b) = true ↔ a < b
  exact decide_eq_true_iff

@[simp] theorem ideal_ge (a b : ℝ) : ideal.ge a b = true ↔ b ≤ a := by
  change (!decide (a < b)) = true ↔ b ≤ a
  simp

theorem ideal_inTurn (x : ℝ) : ideal.inTurn x = true ↔ 0 ≤ x ∧ x < 2 * Real.pi := by
  rw [Num.inTurn, Bool.and_eq_true, ideal_ge, ideal_lt, ideal_zero, ideal_twoPi]

/-- The sum of squares under the root of `DETECT` is the square of a complex number's size. -/
theorem ideal_magnitude (w : ℝ) (n : Nat) (q : Scratch ℝ) : magnitude ideal w n q =
    Real.sqrt (((q.q1 - q.q2 * Real.cos w) / (n / 2)) * ((q.q1 - q.q2 * Real.cos w) / (n / 2)) +
      ((q.q2 * Real.sin w) / (n / 2)) * ((q.q2 * Real.sin w) / (n / 2))) := by
  simp [magnitude]

end Sys2Proof.Machine
end

