-- ==== Sys2Proof/Laws/PerInstr.lean ====
section
/-! SUPPORT. One statement per command, about its word (R71, R77, R78). -/

namespace Sys2Proof.Laws.CommandWord

/-- The word of a command is its opcode above its argument byte, its opcode is one of the seven of the map, and only `SELECT`
has an argument byte other than 0x00. -/
def Statement (i : Instr) : Prop :=
  i.wf = true ∧ (encode i).op = i.op ∧ (encode i).arg = i.arg ∧
  0x01#8 ≤ i.op ∧ i.op ≤ 0x07#8 ∧ (i.arg = 0x00#8 ∨ i.op = 0x04#8)

theorem play : Statement .play := ⟨rfl, encode_op _, encode_arg _, by decide, by decide, .inl rfl⟩

theorem stop : Statement .stop := ⟨rfl, encode_op _, encode_arg _, by decide, by decide, .inl rfl⟩

theorem toggle : Statement .toggle := ⟨rfl, encode_op _, encode_arg _, by decide, by decide, .inl rfl⟩

theorem select (g : Byte) : Statement (.select g) :=
  ⟨rfl, encode_op _, encode_arg _, show 0x01#8 ≤ 0x04#8 by decide, show 0x04#8 ≤ 0x07#8 by decide, .inr rfl⟩

theorem tick : Statement .tick := ⟨rfl, encode_op _, encode_arg _, by decide, by decide, .inl rfl⟩

theorem notify : Statement .notify := ⟨rfl, encode_op _, encode_arg _, by decide, by decide, .inl rfl⟩

theorem poll : Statement .poll := ⟨rfl, encode_op _, encode_arg _, by decide, by decide, .inl rfl⟩

end Sys2Proof.Laws.CommandWord
end

