-- ==== Sys2Proof/Tests/Slice0.lean ====
section
/-! SUPPORT. The model's own tests. Expected values come from the rules named and from the tables of 95_test_vectors.md; the
`witness_` theorems show, for each statement with hypotheses, a concrete input that meets them. -/

namespace Sys2Proof.Tests

open Sys2Proof.Machine

/-! ## Helpers -/

/-- The outcome is a next state with the property `p`. -/
def nextIs (o : Host.Outcome State Fault Refusal) (p : State → Bool) : Bool :=
  match o with
  | .next s => p s
  | .fault _ => false
  | .refused _ => false

theorem exists_next {o : Host.Outcome State Fault Refusal} {p : State → Bool} (h : nextIs o p = true) :
    ∃ s, o = .next s ∧ p s = true := by
  cases o with
  | next s => exact ⟨s, rfl, h⟩
  | fault _ => cases h
  | refused _ => cases h

/-- The sink with these answers coming. -/
def sinkOf (caps : List CapAnswer) (wrs : List WrAnswer) : SinkPort :=
  { stream := [], capScript := caps, wrScript := wrs, capAsked := 0, wrAsked := 0 }

/-- `s` with the inputs `is` coming. -/
def withInputs (is : List Input) (s : State) : State := { s with agents := { script := is, drawn := 0 } }

/-- Streaming glyph `5` at the head of a tick, with a threshold of 2 samples and this sink. -/
def streaming (k : SinkPort) : State :=
  { State.reset with
    playing := true, seq := .head, fLo := 770, fHi := 1336
    params := { volume := 10000, threshold := 2, ovf := .wrap }
    sink := k }

/-- `streaming` with the controller next to act. -/
def streamingTurn (k : SinkPort) : State := withInputs [.controller] (streaming k)

/-- A sink that takes one chunk of two samples. -/
def sinkTwo : SinkPort := sinkOf [.ok 2] [.ok]

/-- A sink that reports two samples and then refuses them. -/
def sinkLoses : SinkPort := sinkOf [.ok 2] [.fail]

/-- The state a `SinkUnavailable` leaves, with playing turned off. -/
def failed : State := { State.reset with sinkErr := true, fLo := 941, fHi := 1477 }

/-- `sin` and `cos` by table; 0 where the table has nothing. -/
def tableTrig (sins coss : List (F64 × F64)) : Trig :=
  { sin := fun x => ((sins.find? (fun e => e.1 == x)).map Prod.snd).getD 0
    cos := fun x => ((coss.find? (fun e => e.1 == x)).map Prod.snd).getD 0 }

/-- `sin`, correctly rounded, at the first five phases of glyph `5`. -/
def sinFive : List (F64 × F64) :=
  [(0x0000000000000000, 0x0000000000000000), (0x3FE35A2A7BC3DB0B, 0x3FE231A89F55054D)] ++
  [(0x3FF35A2A7BC3DB0B, 0x3FEDEF2851F4E2E3), (0x3FFD073FB9A5C890, 0x3FEF0E639783515C)] ++
  [(0x40035A2A7BC3DB0B, 0x3FE529778040B2EC), (0x3FF0C9E65A14F736, 0x3FEBBF0B0E1A47E0)] ++
  [(0x4000C9E65A14F736, 0x3FEBA542B8E2EFF6), (0x40092ED9871F72D1, 0xBF79BC5A9D91F629)] ++
  [(0x4010C9E65A14F736, 0xBFEBD88B99FA1D7D)]

/-- `sin` and `cos`, correctly rounded, at the bin angles of 0, 1000 and 4000 Hz. -/
def binTrig : Trig :=
  tableTrig [(0x0000000000000000, 0x0000000000000000), (0x3FE921FB54442D18, 0x3FE6A09E667F3BCC), (0x400921FB54442D18, 0x3CA1A62633145C07)]
    [(0x0000000000000000, 0x3FF0000000000000), (0x3FE921FB54442D18, 0x3FE6A09E667F3BCD), (0x400921FB54442D18, 0xBFF0000000000000)]

/-- `x` lies strictly between `lo / 10^12` and `hi / 10^12`. -/
def between (x : F64) (lo hi : Int) : Bool :=
  F64.lt (F64.div (F64.ofInt lo) (F64.ofInt 1000000000000)) x &&
    F64.lt x (F64.div (F64.ofInt hi) (F64.ofInt 1000000000000))

/-! ## Well-formedness: legal and ill-formed parameter settings (R33), and every glyph byte (R80) -/

theorem test_params_legal : Params.wf { volume := 32767, threshold := 65535, ovf := .sat } = true := by decide

theorem test_params_volume_too_large : Params.wf { volume := 32768, threshold := 96, ovf := .wrap } = false := by decide

theorem test_params_threshold_zero : Params.wf { volume := 0, threshold := 0, ovf := .wrap } = false := by decide

theorem test_params_threshold_too_large : Params.wf { volume := 0, threshold := 65536, ovf := .wrap } = false := by decide

theorem test_select_any_byte_wf : Instr.wf (.select 0xFF) = true := rfl

/-! ## Decoding: one word per command, bit by bit from the opcode map (R77), and the illegal words of P5 (R80) -/

theorem test_decode_play : decode 0b0000000100000000#16 = .ok .play := rfl
theorem test_decode_stop : decode 0b0000001000000000#16 = .ok .stop := rfl
theorem test_decode_toggle : decode 0b0000001100000000#16 = .ok .toggle := rfl
theorem test_decode_select_five : decode 0b0000010000110101#16 = .ok (.select 0b00110101#8) := rfl
theorem test_decode_select_hash : decode 0b0000010000100011#16 = .ok (.select 0x23#8) := rfl
theorem test_decode_tick : decode 0b0000010100000000#16 = .ok .tick := rfl
theorem test_decode_notify : decode 0b0000011000000000#16 = .ok .notify := rfl
theorem test_decode_poll : decode 0b0000011100000000#16 = .ok .poll := rfl
theorem test_decode_illegal_zero : decode 0x0000#16 = .error .opZero := rfl
theorem test_decode_illegal_high : decode 0xFFFF#16 = .error .opHigh := rfl
theorem test_decode_illegal_low_high : decode 0x0800#16 = .error .opHigh := rfl
theorem test_decode_illegal_arg : decode 0x0501#16 = .error .argNotZero := rfl
theorem test_decode_table_word : decodeTableWord 16 0x0435 = some (.select 0x35) := rfl
theorem test_decode_table_word_too_wide : decodeTableWord 24 0x10100 = none := rfl

/-! ## Commands, as steps (P3, P5) -/

/-- P1: `SELECT '5'` gives 770 and 1336 and is answered 0x00. -/
theorem test_select_five : nextIs (step (State.reset.withFetchWord 16 0x0435))
    (fun s => s.fLo == 770 && s.fHi == 1336 && s.playing == false &&
      s.response == some { code := .ok, levels := none }) = true := by decide

/-- P5: 0x0461 is well formed and answered 0x01; the frequencies stay 0. -/
theorem test_select_lower_case : nextIs (step (State.reset.withFetchWord 16 0x0461))
    (fun s => s.fLo == 0 && s.fHi == 0 && s.response == some { code := .invalidSymbol, levels := none }) = true := by
  decide

/-- P3: `PLAY` turns playing on. -/
theorem test_play : nextIs (step (failed.withFetchWord 16 0x0100))
    (fun s => s.playing && !s.sinkErr && s.fLo == 941) = true := by decide

/-- P4: `STOP` taken mid-tick leaves `SEQ` at `HEAD`, so `STATUS` is 0b0010. -/
theorem test_stop_mid_tick : nextIs (step ((streaming sinkTwo).withFetchWord 16 0x0200))
    (fun s => status s == 0b0010#4) = true := by decide

/-- P3: `TOGGLE` turns playing on and clears `SINK_ERR`. -/
theorem test_toggle_recovers : nextIs (step (failed.withFetchWord 16 0x0300))
    (fun s => s.playing && !s.sinkErr && s.fLo == 941) = true := by decide

/-- P5: before the `run`, `STATUS` is 0b0100. -/
theorem test_tick : nextIs (step (State.reset.withFetchWord 16 0x0500)) (fun s => status s == 0b0100#4) = true := by decide

theorem test_notify : nextIs (step (State.reset.withFetchWord 16 0x0600)) (fun s => status s == 0b0100#4) = true := by decide

/-- `POLL` answers the vector as it stands (R139). -/
theorem test_poll : nextIs (step ({ State.reset with levels := #v[1, 2, 3, 4, 5, 6, 7, 8] }.withFetchWord 16 0x0700))
    (fun s => s.response == some { code := .ok, levels := some #v[1, 2, 3, 4, 5, 6, 7, 8] }) = true := by decide

/-- P5: 0x0101 is answered 0x03. -/
theorem test_illegal_command : nextIs (step (State.reset.withFetchWord 16 0x0101))
    (fun s => s.response == some { code := .illegalCommand, levels := none } && s.playing == false) = true := by decide

/-! ## Controller steps -/

/-- P1: after `TBEGIN`, `SEQ` is `HEAD` and `TICK_REQ` 0. -/
theorem test_tbegin : nextIs (controllerTurn machineNum { State.reset with tickReq := true })
    (fun s => s.seq == .head && !s.tickReq) = true := by decide

/-- Section 2.6: a capacity of 95 ends the tick and keeps the levels; nothing is written. -/
theorem test_cycle_below_threshold :
    nextIs (cycle machineNum { streaming (sinkOf [.ok 1] []) with levels := #v[9, 9, 9, 9, 9, 9, 9, 9] })
      (fun s => s.seq == .rest && s.levels == #v[9, 9, 9, 9, 9, 9, 9, 9] && s.sink.capAsked == 1 && s.sink.wrAsked == 0) =
    true := by decide

/-- P3: a failed query gives `STATUS` 0b1000. -/
theorem test_cycle_query_fails : nextIs (cycle machineNum (streaming (sinkOf [.fail] []))) (fun s => status s == 0b1000#4) = true := by
  decide

/-- P3: after a failed write the phases are advanced and nothing is in the sink. -/
theorem test_cycle_write_fails : nextIs (cycle machineNum (streaming sinkLoses))
    (fun s => status s == 0b1000#4 && s.phLo == 0x3FF35A2A7BC3DB0B && s.sink.stream == [] && s.sink.wrAsked == 1) = true := by
  decide +kernel

/-- A chunk of the capacity's two samples, the first of which is 0 where `sin 0 = 0` (R118); `SEQ` stays `HEAD`. -/
theorem test_cycle_chunk : nextIs (cycle (F64.num (tableTrig sinFive [])) (streaming sinkTwo))
    (fun s => s.seq == .head && s.sink.stream == [0#16, 14357#16] && s.phHi == 0x4000C9E65A14F736) = true := by
  decide +kernel

/-! ## Generator and detector against 95_test_vectors.md -/

/-- Section 1.3: the first five samples of glyph `5`. -/
theorem test_render_five :
    (render (F64.num (tableTrig sinFive [])) resetParams 770 1336 5 { lo := 0, hi := 0 }).map Prod.fst =
      some [0#16, 14357#16, 17993#16, 9642#16, BitVec.ofInt 16 (-2089)] := by decide +kernel

/-- P3: 96 increments of glyph `#` leave the phases 1.834690109696 and 4.549026162398. -/
theorem test_phases_hash :
    ((render (F64.num (tableTrig [] [])) resetParams 941 1477 96 { lo := 0, hi := 0 }).map
      (fun r => between r.2.lo 1834690109695 1834690109697 && between r.2.hi 4549026162397 4549026162399)) = some true := by
  decide +kernel

/-- Section 2.2, vector 2: `[1, 1, 1, 1]` at 0 Hz is 2. -/
theorem test_detect_mean : detect (F64.num binTrig) [1, 1, 1, 1] 8000 0 = some 0x4000000000000000 := by decide +kernel

/-- Section 2.2, vector 3: the single sample −7 is 14, whatever `sin` and `cos` are. -/
theorem test_detect_single :
    detect (F64.num (tableTrig [] [])) [BitVec.ofInt 16 (-7)] 8000 697 = some 0x402C000000000000 := by decide +kernel

/-- Section 2.2, vector 6: an odd block, with `half = 1.5`: 3.354182033024. -/
theorem test_detect_odd :
    (detect (F64.num binTrig) [1, 2, 3] 8000 1000).map (fun m => between m 3354182033023 3354182033025) = some true := by
  decide +kernel

/-- Section 2.2, vector 7: 65535 at 4000 Hz. -/
theorem test_detect_alternating :
    detect (F64.num binTrig) [0x7FFF, 0x8000, 0x7FFF, 0x8000] 8000 4000 = some 0x40EFFFE000000000 := by decide +kernel

/-- `OVF` on the sum 40000 (R115): −25536 with `WRAP`, 32767 with `SAT`. -/
theorem test_trunc16 : (trunc16 .wrap 40000).toInt = -25536 ∧ (trunc16 .sat 40000).toInt = 32767 := by decide

/-! ## Binary64, against IEEE 754 -/

/-- `1/3` is 0x3FD5555555555555. -/
theorem test_f64_div : F64.div 0x3FF0000000000000 0x4008000000000000 = 0x3FD5555555555555 := by decide +kernel

/-- `0.1 + 0.2` is 0x3FD3333333333334. -/
theorem test_f64_add : F64.add 0x3FB999999999999A 0x3FC999999999999A = 0x3FD3333333333334 := by decide +kernel

/-- `√2` is 0x3FF6A09E667F3BCD. -/
theorem test_f64_sqrt : F64.sqrt 0x4000000000000000 = 0x3FF6A09E667F3BCD := by decide +kernel

/-- The smallest subnormal halved is a tie to even: zero. -/
theorem test_f64_underflow : F64.mul 0x0000000000000001 0x3FE0000000000000 = 0 := by decide +kernel

/-- The largest finite number doubled is infinity. -/
theorem test_f64_overflow : F64.mul 0x7FEFFFFFFFFFFFFF 0x4000000000000000 = 0x7FF0000000000000 := by decide +kernel

/-- `round(−2.5)` is −3: ties away from zero (R9, D7). -/
theorem test_f64_round : F64.round 0xC004000000000000 = -3 := by decide +kernel

/-! ## Witnesses: decoding and commands -/

theorem witness_EveryWordDecodesByOpAndArg :
    Word.op 0x04FF#16 = 0x04#8 ∧ (Word.op 0x0100#16 = 0x01#8 ∧ Word.arg 0x0100#16 = 0x00#8) ∧
    (Word.op 0x0200#16 = 0x02#8 ∧ Word.arg 0x0200#16 = 0x00#8) ∧
    (Word.op 0x0300#16 = 0x03#8 ∧ Word.arg 0x0300#16 = 0x00#8) ∧
    (Word.op 0x0500#16 = 0x05#8 ∧ Word.arg 0x0500#16 = 0x00#8) ∧
    (Word.op 0x0600#16 = 0x06#8 ∧ Word.arg 0x0600#16 = 0x00#8) ∧
    (Word.op 0x0700#16 = 0x07#8 ∧ Word.arg 0x0700#16 = 0x00#8) ∧
    Word.op 0x00FF#16 = 0x00#8 ∧ 0x08#8 ≤ Word.op 0x0800#16 ∧ 0x08#8 ≤ Word.op 0xFFFF#16 ∧
    (Word.op 0x07FF#16 ∈ [0x01#8, 0x02#8, 0x03#8, 0x05#8, 0x06#8, 0x07#8] ∧ Word.arg 0x07FF#16 ≠ 0x00#8) ∧
    (Word.op 0x0101#16 ∈ [0x01#8, 0x02#8, 0x03#8, 0x05#8, 0x06#8, 0x07#8] ∧ Word.arg 0x0101#16 ≠ 0x00#8) := by decide

theorem witness_DecodeAndEncodeAgree : (Instr.select 0xFF).wf = true ∧ Instr.play.wf = true := ⟨rfl, rfl⟩

theorem witness_StepRunsTheDecodedCommand :
    decode 0x0435#16 = .ok (.select 0x35) ∧
    nextInput (withInputs [.command 0x0435] State.reset).agents = .command 0x0435 ∧
    (withInputs [.command 0x0435] State.reset).agents.script = [.command 0x0435] := ⟨rfl, rfl, rfl⟩

theorem witness_IllegalWord :
    nextInput (withInputs [.command 0x0701] State.reset).agents = .command 0x0701 ∧ ∀ i, encode i ≠ 0x0701#16 := by
  refine ⟨rfl, fun i => ?_⟩
  cases i with
  | select g =>
    intro h
    have h2 := congrArg Word.op h
    rw [encode, Word.op_append] at h2
    exact absurd h2 (show (0x04#8 : Byte) ≠ Word.op 0x0701#16 by decide)
  | _ => decide

theorem witness_TakingAnInput :
    (withInputs [.reset, .controller] State.reset).agents.script = [.reset, .controller] ∧ State.reset.agents.script = [] :=
  ⟨rfl, rfl⟩

theorem witness_ToggleInvertsPlaying : State.reset.playing = false ∧ (streaming sinkTwo).playing = true := ⟨rfl, rfl⟩

theorem witness_SelectSetsThePair : (⟨0x31, 0, 0⟩ : KeyRow) ∈ keyTable ∧ (⟨0x44, 3, 3⟩ : KeyRow) ∈ keyTable := by decide

/-- The codes next to the glyphs' are no glyphs. -/
theorem witness_SelectOfNoGlyph :
    ∀ g ∈ [0x00#8, 0x22#8, 0x24#8, 0x29#8, 0x2B#8, 0x2F#8, 0x3A#8, 0x40#8, 0x45#8, 0x61#8, 0xFF#8],
      ∀ k ∈ keyTable, k.glyph ≠ g := by decide

theorem witness_PressStopsAfterARefusedSelect :
    lookup 0x35 = some (770, 1336) ∧ lookup 0x44 = some (941, 1633) ∧ lookup 0x45 = none := by decide

theorem witness_LookupIsInjective :
    lookup 0x35 = some (770#16, 1336#16) ∧ 770#16 ∈ [697#16, 770#16, 852#16, 941#16] ∧
    1336#16 ∈ [1209#16, 1336#16, 1477#16, 1633#16] := by decide

theorem witness_ResetStep : nextInput (withInputs [.reset] (streaming sinkTwo)).agents = .reset := rfl

/-! ## Witnesses: rules about every step -/

theorem witness_PlayingChanges_command :
    ∃ s', step (State.reset.withFetchWord 16 0x0100) = .next s' ∧ (s'.playing != false) = true := exists_next (by decide)

theorem witness_PlayingChanges_controller :
    ∃ s', step (streamingTurn sinkLoses) = .next s' ∧ (s'.playing != true) = true := exists_next (by decide +kernel)

theorem witness_PlayingChanges_reset :
    ∃ s', step (withInputs [.reset] (streaming sinkTwo)) = .next s' ∧ (s'.playing != true) = true := exists_next (by decide)

theorem witness_PhasesChange_rendering :
    ∃ s', step (streamingTurn sinkTwo) = .next s' ∧ (s'.phLo != (streamingTurn sinkTwo).phLo) = true :=
  exists_next (by decide +kernel)

theorem witness_PhasesChange_reset :
    ∃ s', step (withInputs [.reset] { State.reset with phHi := 0x3FF0000000000000 }) = .next s' ∧
      (s'.phHi != 0x3FF0000000000000) = true := exists_next (by decide)

theorem witness_FrequenciesChange_select :
    ∃ s', step (State.reset.withFetchWord 16 0x0435) = .next s' ∧ (s'.fLo != 0) = true := exists_next (by decide)

theorem witness_FrequenciesChange_reset :
    ∃ s', step (withInputs [.reset] (streaming sinkTwo)) = .next s' ∧ (s'.fHi != 1336) = true := exists_next (by decide)

/-- A step that writes a chunk: a premise of `LevelsAreWrittenAsAWhole`, `LevelsInfluenceNothingElse`,
`NoStepChangesAParameter`, `EveryCommandIsAnsweredOnce` (its controller clause) and `SeqMovesOnlyByControllerSteps` (from
`HEAD` to `HEAD`). -/
theorem witness_chunk_step :
    nextInput (streamingTurn sinkTwo).agents = .controller ∧ (streamingTurn sinkTwo).seq = .head ∧
    ∃ s', step (streamingTurn sinkTwo) = .next s' ∧ (s'.seq == .head) = true :=
  ⟨rfl, rfl, exists_next (by decide +kernel)⟩

theorem witness_StreamGrows :
    ∃ s', step (streamingTurn sinkTwo) = .next s' ∧ (s'.sink.wrAsked == 1 && s'.sink.stream.length == 2) = true :=
  exists_next (by decide +kernel)

/-- Steps of the other agents: premises of the rules about every step. -/
theorem witness_other_steps :
    (∃ s', step (State.reset.withFetchWord 16 0x0500) = .next s' ∧ (s'.seq == .rest) = true) ∧
    (nextInput (withInputs [.controller] State.reset).agents = .controller ∧ State.reset.seq = .rest ∧
      ∃ s', step (withInputs [.controller] State.reset) = .next s' ∧ (s'.seq == .rest) = true) ∧
    (∃ s', step (withInputs [.controller] { State.reset with tickReq := true }) = .next s' ∧ (s'.seq == .head) = true) ∧
    (nextInput (withInputs [.reset] (streaming sinkTwo)).agents = .reset ∧
      ∃ s', step (withInputs [.reset] (streaming sinkTwo)) = .next s' ∧ (s'.seq == .rest) = true) :=
  ⟨exists_next (by decide), ⟨rfl, rfl, exists_next (by decide)⟩, exists_next (by decide),
    ⟨rfl, exists_next (by decide)⟩⟩

theorem witness_SinkErrIsSticky_set :
    (∃ s', step (streamingTurn sinkLoses) = .next s' ∧ (s'.sinkErr != false && s'.sink.wrAsked == 1) = true) ∧
    ∃ s', step (streamingTurn (sinkOf [.fail] [])) = .next s' ∧ (s'.sinkErr != false && s'.sink.wrAsked == 0) = true :=
  ⟨exists_next (by decide +kernel), exists_next (by decide +kernel)⟩

theorem witness_SinkErrIsSticky_cleared :
    (∃ s', step (failed.withFetchWord 16 0x0300) = .next s' ∧ (s'.sinkErr != true) = true) ∧
    (∃ s', step (withInputs [.reset] failed) = .next s' ∧ (s'.sinkErr != true) = true) :=
  ⟨exists_next (by decide), exists_next (by decide)⟩

/-! ## Witnesses: the controller -/

theorem witness_ControllerTakesTheEnabledStep :
    nextInput (streamingTurn sinkTwo).agents = .controller ∧ (streamingTurn sinkTwo).seq = .head ∧
    (withInputs [.controller] { State.reset with tickReq := true }).tickReq = true ∧
    quiescent (withInputs [.controller] State.reset) = true :=
  ⟨rfl, rfl, rfl, rfl⟩

/-- Neither a pending tick nor a tick in progress is quiescent (R149). -/
theorem test_quiescent : quiescent { State.reset with tickReq := true } = false ∧ quiescent (streaming sinkTwo) = false := by
  decide

/-- A sink with scripted answers, and one without any. -/
theorem witness_Cycle_sink :
    sinkTwo.capScript = [.ok 2] ∧ sinkTwo.wrScript = [.ok] ∧ State.reset.sink.capScript = [] ∧
    State.reset.sink.wrScript = [] := ⟨rfl, rfl, rfl, rfl⟩

theorem witness_IdleTick :
    ({ State.reset with tickReq := true } : State).playing = false ∧ State.reset.seq = .rest ∧
    ({ State.reset with tickReq := true } : State).tickReq = true := ⟨rfl, rfl, rfl⟩

/-- Below the threshold of 2: the capacity 1. -/
theorem witness_Cycle_ends :
    State.reset.playing = false ∧ (streaming sinkTwo).playing = true ∧
    ¬((streaming sinkTwo).fLo = 0 ∧ (streaming sinkTwo).fHi = 0) ∧
    nextCap (sinkOf [.fail] []) = .fail ∧ nextCap (sinkOf [.ok 1] []) = .ok 1 ∧
    (1 : Word).toNat < (streaming sinkTwo).params.threshold := by decide

/-- At the threshold of 2: the capacity 2, with a write that succeeds and one that fails. -/
theorem witness_Cycle_renders :
    (streaming sinkTwo).playing = true ∧ ¬((streaming sinkTwo).fLo = 0 ∧ (streaming sinkTwo).fHi = 0) ∧
    nextCap (streaming sinkTwo).sink = .ok 2 ∧ (streaming sinkTwo).params.threshold ≤ (2 : Word).toNat ∧
    1 ≤ (2 : Word).toNat ∧ nextWr sinkTwo = .ok ∧ nextWr sinkLoses = .fail ∧ nextCap sinkLoses = .ok 2 := by decide

theorem witness_Cycle_renders_completes :
    (render (F64.num (tableTrig [] [])) (streaming sinkTwo).params 770 1336 2 { lo := 0, hi := 0 }).isSome = true := by
  decide +kernel

/-- A phase register from which neither its increment nor a turn can be told apart: `RENDER` does not come to an end. -/
theorem render_stuck {R : Type} (N : Num R) (p : Params) {f g : Word} {x y : R} (n : Nat) (hf : f ≠ 0)
    (hadd : N.add x (incr N f) = x) (hlt : N.lt x N.twoPi = false) (hsub : N.sub x N.twoPi = x) :
    render N p f g (n + 1) { lo := x, hi := y } = none := by
  have h : advance N f x = none := by
    rw [advance_active N hf, hadd, wrap_stuck N hlt hsub]
  rw [render, advanceBoth, h]

/-- The phase `2^60`, far outside the type of a phase register, is one. -/
theorem witness_Cycle_renders_diverges :
    render (F64.num (tableTrig [] [])) (streaming sinkTwo).params 770 1336 2 { lo := 0x43B0000000000000, hi := 0 } = none :=
  render_stuck _ _ 1 (by decide) (by decide +kernel) (by decide +kernel) (by decide +kernel)

theorem witness_EmptyBlock :
    nextCap (sinkOf [.ok 0] [.ok]) = .ok 0 ∧ nextWr (sinkOf [.ok 0] [.ok]) = .ok ∧
    ({ streaming sinkTwo with params := { volume := 0, threshold := 0, ovf := .wrap } } : State).params.threshold = 0 :=
  ⟨rfl, rfl, rfl⟩

theorem witness_SinkUnavailable : Instr.play = .play ∧ Instr.toggle = .toggle := ⟨rfl, rfl⟩

/-! ## Witnesses: generator, detector, numerics -/

/-- A numerics record over the integers whose `sin` is always 0. -/
def intNum : Num Int :=
  { ofInt := id, add := (· + ·), sub := (· - ·), mul := (· * ·), div := (· / ·), sin := fun _ => 0, cos := fun _ => 1,
    sqrt := id, twoPi := 6, lt := fun a b => decide (a < b), round := id }

/-- The real number an integer of `intNum` stands for. -/
noncomputable def intVal (n : Int) : Option ℝ := some (n : ℝ)

theorem witness_EachSample :
    (render intNum resetParams 770 0 3 { lo := 5, hi := 0 }).isSome = true ∧
    (render intNum resetParams 770 0 0 { lo := 5, hi := 0 }).isSome = true ∧ 0 < 3 ∧ 2 < 3 := by decide

theorem witness_InactiveOscillators :
    (render intNum resetParams 0 1336 3 { lo := 5, hi := 0 }).isSome = true ∧
    (render intNum resetParams 770 0 3 { lo := 5, hi := 0 }).isSome = true := by decide

/-- In `intNum` the loop of R113 takes one turn of 6 away in each pass. -/
theorem intNum_wraps : ∀ (n : Nat) (p : Int), 0 ≤ p → p < 6 * (n + 1) → ∃ q, wrapLoop intNum n p = some q ∧ intNum.inTurn q = true
  | n, p, h0, hn => by
    by_cases hp : p < 6
    · have hlt : intNum.lt p intNum.twoPi = true := decide_eq_true hp
      refine ⟨p, wrapLoop_below _ hlt n, ?_⟩
      rw [Num.inTurn, hlt, Bool.and_true]
      change (!decide (p < 0)) = true
      simpa using h0
    · cases n with
      | zero => omega
      | succ n =>
        obtain ⟨q, hq⟩ := intNum_wraps n (p - 6) (by omega) (by push_cast at hn; omega)
        exact ⟨q, by rw [wrapLoop_above _ (decide_eq_false hp)]; exact hq.1, hq.2⟩

theorem intNum_numWrap : NumWrap intNum := by
  intro p d hp hd
  have key : ∀ x : Int, intNum.ge x intNum.zero = true → 0 ≤ x := fun x h => by
    change (!decide (x < 0)) = true at h
    simpa using h
  have h0 := key p (by rw [Num.inTurn, Bool.and_eq_true] at hp; exact hp.1)
  have h1 := key d hd
  obtain ⟨q, hq, ht⟩ := intNum_wraps (p + d).toNat (p + d) (by omega) (by omega)
  exact ⟨q, ⟨_, hq⟩, ht⟩

/-- One pass from 7, none from 5: `wrap` gives 1 and 5. -/
theorem witness_PhaseAdvances :
    (770#16 : Word) ≠ 0 ∧ wrap intNum 7 = some 1 ∧ wrap intNum 5 = some 5 ∧ 0 < 1 ∧ NumWrap intNum ∧
    intNum.inTurn 5 = true ∧
    intNum.ge (intNum.div (intNum.mul intNum.twoPi (intNum.ofInt 770)) (intNum.ofInt 8000)) intNum.zero = true :=
  ⟨by decide, by decide, by decide, by decide, intNum_numWrap, rfl, rfl⟩

/-- A record in which a pass takes little away: `round` is always 0, so one pass is tried first, and two are needed. -/
theorem test_wrap_more_passes : wrap { intNum with round := fun _ => 0 } 13 = some 1 := by
  rw [wrap_eq_wrapWhile]
  exact wrapWhile_of_wrapLoop _ (n := 2) (by decide)

theorem witness_IdealWrap : (0 : ℝ) ≤ 0 ∧ (0 : ℝ) ≤ 2 * Real.pi := ⟨le_refl 0, by positivity⟩

theorem witness_Truncation : (-32768 : Int) ≤ -32768 ∧ (-32768 : Int) ≤ 32767 ∧ (32767 : Int) ≤ 32767 := by decide

theorem witness_NoOverflow :
    NumRange intNum ∧ 16383 ≤ 16383 ∧ intNum.inTurn 0 = true ∧ intNum.inTurn 5 = true := by
  refine ⟨fun p V _ _ => ?_, le_refl _, rfl, rfl⟩
  have h : intNum.round (intNum.mul (intNum.sin p) (intNum.ofInt V)) = 0 := zero_mul (V : Int)
  rw [h]
  constructor <;> omega

/-- Both ends of the range of a phase: +0 and the last pattern below 2π. -/
theorem witness_RenderCompletes :
    (F64.num (tableTrig [] [])).inTurn 0 = true ∧ (F64.num (tableTrig [] [])).inTurn 0x401921FB54442D17 = true := by
  decide +kernel

theorem intVal_zero {n : Int} : intVal n = some 0 ↔ n = 0 := by simp [intVal]

theorem intNum_numZero : NumZero intNum intVal where
  zero := intVal_zero.2 rfl
  add a b ha hb := intVal_zero.2 (show a + b = 0 by rw [intVal_zero.1 ha, intVal_zero.1 hb, add_zero])
  sub a b ha hb := intVal_zero.2 (show a - b = 0 by rw [intVal_zero.1 ha, intVal_zero.1 hb, sub_zero])
  mul c z _ hz := intVal_zero.2 (show c * z = 0 by rw [intVal_zero.1 hz, mul_zero])
  div z h hz _ := intVal_zero.2 (show z / h = 0 by rw [intVal_zero.1 hz, Int.zero_ediv])
  sqrt _ hz := hz
  sin := intVal_zero.2 rfl

theorem witness_Silence :
    NumZero intNum intVal ∧ MulZeroLeft intNum intVal ∧ 1 ≤ 4 ∧
    (intVal (intNum.sin (angle intNum 8000 697))).isSome = true ∧
    (intVal (intNum.cos (angle intNum 8000 697))).isSome = true ∧
    (intVal (coeff intNum (angle intNum 8000 697))).isSome = true ∧
    intVal (intNum.div (intNum.ofInt 4) (intNum.ofInt 2)) ≠ some 0 :=
  ⟨intNum_numZero, fun z c hz _ => intVal_zero.2 (show z * c = 0 by rw [intVal_zero.1 hz, zero_mul]), by decide, rfl, rfl, rfl,
    fun h => absurd (intVal_zero.1 h) (by decide)⟩

/-- The bin of 1000 Hz in binary64. -/
theorem witness_Silence_binary64 :
    F64.finite (binTrig.sin (angle (F64.num binTrig) 8000 1000)) = true ∧
    F64.finite (binTrig.cos (angle (F64.num binTrig) 8000 1000)) = true ∧
    F64.finite (coeff (F64.num binTrig) (angle (F64.num binTrig) 8000 1000)) = true := by decide +kernel

theorem witness_blocks :
    ([0#16] : List Sample) ≠ [] ∧ ([0x7FFF#16, 0x8000#16] : List Sample) ≠ [] ∧
    ([0x7FFF#16, 0x8000#16] : List Sample)[1]? = some 0x8000#16 := by decide

/-- 1.0 and 3.0 are finite, and 1.0 is neither zero nor negative. -/
theorem witness_BinarySixtyFour :
    F64.finite 0x3FF0000000000000 = true ∧ F64.finite 0x4008000000000000 = true ∧
    F64.toReal (F64.ofBits false (1022 * 2 ^ 52 + 2 ^ 52)) = 1 := by
  refine ⟨by decide, by decide, ?_⟩
  rw [F64.toReal_ofBits false (by norm_num) (.inr (le_refl _)) (by norm_num)]
  norm_num

theorem witness_Conversions :
    (2 ^ 53 - 1 : Int).natAbs < 2 ^ 53 ∧ F64.isNaN 0x7FF8000000000000 = true ∧ F64.isNaN 0x7FF0000000000001 = true := by
  decide

/-! ## Witnesses: the invariant -/

theorem streaming_inv (k : SinkPort) : Inv (streaming k) :=
  { phLo := by change phaseOk 0 = true; decide +kernel
    phHi := by change phaseOk 0 = true; decide +kernel
    fLo := rfl
    fHi := rfl
    both := by change (770#16 : Word) = 0 ↔ (1336#16 : Word) = 0; decide
    levels := by change ∀ k : Fin 8, levelOk (zeroLevels machineNum)[k] = true; decide
    params := rfl
    sinkErr := by intro h; cases h }

theorem witness_EveryStepKeepsTheInvariant :
    Inv (streamingTurn sinkTwo) ∧ ∃ s', step (streamingTurn sinkTwo) = .next s' ∧ (s'.seq == .head) = true :=
  ⟨{ streaming_inv sinkTwo with }, exists_next (by decide +kernel)⟩

theorem witness_NoLegalStateStops : Inv (streaming sinkTwo) := streaming_inv _

/-- The sink takes a chunk of two and is then one short of the threshold. -/
theorem witness_ATickEnds :
    Inv (streaming (sinkOf [.ok 2, .ok 1] [.ok])) ∧
    endsTick (streaming (sinkOf [.ok 2, .ok 1] [.ok])).params.threshold (capAt (sinkOf [.ok 2, .ok 1] [.ok]) 1) = true ∧
    endsTick 2 .fail = true :=
  ⟨streaming_inv _, rfl, rfl⟩

end Sys2Proof.Tests
end

/-! PROOFS. What a step does to the phases, the frequency registers, `SEQ` and `TICK_REQ`, the bits of the status output, and
what reset leaves (10_state.md). -/

namespace Sys2Proof.Machine

/-! ## The states after a chunk, field by field -/

section

variable {R : Type} (s : State R) (N : Num R) (ph : Phases R) (buf : List Sample) (v : Vector R 8)

@[simp] theorem afterChunk_phLo : (afterChunk ph buf v s).phLo = ph.lo := rfl
@[simp] theorem afterChunk_phHi : (afterChunk ph buf v s).phHi = ph.hi := rfl
@[simp] theorem afterChunk_fLo : (afterChunk ph buf v s).fLo = s.fLo := rfl
@[simp] theorem afterChunk_fHi : (afterChunk ph buf v s).fHi = s.fHi := rfl
@[simp] theorem afterChunk_playing : (afterChunk ph buf v s).playing = s.playing := rfl
@[simp] theorem afterChunk_seq : (afterChunk ph buf v s).seq = s.seq := rfl
@[simp] theorem afterChunk_tickReq : (afterChunk ph buf v s).tickReq = s.tickReq := rfl
@[simp] theorem afterChunk_sinkErr : (afterChunk ph buf v s).sinkErr = s.sinkErr := rfl
@[simp] theorem afterChunk_levels : (afterChunk ph buf v s).levels = v := rfl
@[simp] theorem afterChunk_params : (afterChunk ph buf v s).params = s.params := rfl
@[simp] theorem afterChunk_sink : (afterChunk ph buf v s).sink = wrDone buf (capDone s.sink) := rfl
@[simp] theorem afterChunk_agents : (afterChunk ph buf v s).agents = s.agents := rfl
@[simp] theorem afterChunk_response : (afterChunk ph buf v s).response = s.response := rfl

@[simp] theorem afterLostChunk_phLo : (afterLostChunk N ph buf s).phLo = ph.lo := rfl
@[simp] theorem afterLostChunk_phHi : (afterLostChunk N ph buf s).phHi = ph.hi := rfl
@[simp] theorem afterLostChunk_fLo : (afterLostChunk N ph buf s).fLo = s.fLo := rfl
@[simp] theorem afterLostChunk_fHi : (afterLostChunk N ph buf s).fHi = s.fHi := rfl
@[simp] theorem afterLostChunk_playing : (afterLostChunk N ph buf s).playing = false := rfl
@[simp] theorem afterLostChunk_seq : (afterLostChunk N ph buf s).seq = .rest := rfl
@[simp] theorem afterLostChunk_tickReq : (afterLostChunk N ph buf s).tickReq = s.tickReq := rfl
@[simp] theorem afterLostChunk_sinkErr : (afterLostChunk N ph buf s).sinkErr = true := rfl
@[simp] theorem afterLostChunk_levels : (afterLostChunk N ph buf s).levels = zeroLevels N := rfl
@[simp] theorem afterLostChunk_params : (afterLostChunk N ph buf s).params = s.params := rfl
@[simp] theorem afterLostChunk_sink : (afterLostChunk N ph buf s).sink = wrDone buf (capDone s.sink) := rfl
@[simp] theorem afterLostChunk_agents : (afterLostChunk N ph buf s).agents = s.agents := rfl
@[simp] theorem afterLostChunk_response : (afterLostChunk N ph buf s).response = s.response := rfl

theorem bothInactive_eq_false : bothInactive s = false ↔ ¬(s.fLo = 0 ∧ s.fHi = 0) := by
  simp [bothInactive]

end

/-! ## What `CYCLE` does to a field (R141) -/

section

variable {R : Type} {N : Num R} {s s' : State R}

/-- Only `SELECT` and reset write the frequency registers (R24), so `CYCLE` keeps both. -/
theorem cycle_freq (h : cycle N s = .next s') : s'.fLo = s.fLo ∧ s'.fHi = s.fHi := by
  obtain ⟨-, rfl⟩ | ⟨-, -, ⟨-, rfl⟩ | ⟨n, -, -, rfl⟩⟩ | ⟨n, buf, ph, -, -, ⟨-, rfl⟩ | ⟨-, v, -, rfl⟩⟩ := cycle_next h <;> simp

/-- `CYCLE` neither sets nor clears the latch; that is left to `TBEGIN` and the requests (R30). -/
theorem cycle_tickReq (h : cycle N s = .next s') : s'.tickReq = s.tickReq := by
  obtain ⟨-, rfl⟩ | ⟨-, -, ⟨-, rfl⟩ | ⟨n, -, -, rfl⟩⟩ | ⟨n, buf, ph, -, -, ⟨-, rfl⟩ | ⟨-, v, -, rfl⟩⟩ := cycle_next h <;> simp

/-- `CYCLE` keeps both phases, or it renders and leaves those that `RENDER` gives, whatever the sink answers to the write. -/
theorem cycle_phases (h : cycle N s = .next s') :
    (s'.phLo = s.phLo ∧ s'.phHi = s.phHi) ∨
    ∃ n buf, Renders s n ∧ rendered N s n = some (buf, { lo := s'.phLo, hi := s'.phHi }) := by
  obtain ⟨-, rfl⟩ | ⟨-, -, ⟨-, rfl⟩ | ⟨n, -, -, rfl⟩⟩ | ⟨n, buf, ph, hren, hr, hw⟩ := cycle_next h
  · exact .inl ⟨rfl, rfl⟩
  · exact .inl ⟨rfl, rfl⟩
  · exact .inl ⟨rfl, rfl⟩
  · refine .inr ⟨n, buf, hren, ?_⟩
    obtain ⟨-, rfl⟩ | ⟨-, v, -, rfl⟩ := hw
    · exact hr
    · exact hr

/-- From `HEAD`, `CYCLE` stays there exactly when it has made a write that the sink answered `Ok` (R28). -/
theorem cycle_seq_eq_head (hs : s.seq = .head) (h : cycle N s = .next s') :
    s'.seq = .head ↔ s'.sink.wrAsked = s.sink.wrAsked + 1 ∧ nextWr s.sink = .ok := by
  obtain ⟨-, rfl⟩ | ⟨-, -, ⟨-, rfl⟩ | ⟨n, -, -, rfl⟩⟩ | ⟨n, buf, ph, -, -, ⟨hw, rfl⟩ | ⟨hw, v, -, rfl⟩⟩ := cycle_next h
  case inr.inr.inl => simp [hw]
  case inr.inr.inr => simp [hs, hw]
  all_goals simp

end

/-! ## What a command does to a field -/

section

variable {R : Type} {i : Instr} {s : State R}

/-- Only a `SELECT` of a glyph writes the frequency registers, and it writes the glyph's pair (R24, R136). -/
theorem lookup_of_afterCommand_freq_ne (h : (afterCommand i s).fLo ≠ s.fLo ∨ (afterCommand i s).fHi ≠ s.fHi) :
    ∃ g, i = .select g ∧ lookup g = some ((afterCommand i s).fLo, (afterCommand i s).fHi) := by
  have hf := afterCommand_freq i s
  cases i with
  | select g =>
    refine ⟨g, rfl, ?_⟩
    cases hl : lookup g with
    | none => simp [hl] at hf; simp [hf] at h
    | some p => simpa [hl] using hf.symm
  | _ => simp at hf; simp [hf] at h

/-- `TICK` and `NOTIFY` set the latch and every other command keeps it (R30). -/
theorem afterCommand_tickReq_eq_ite :
    (afterCommand i s).tickReq = if i = .tick ∨ i = .notify then true else s.tickReq := by
  rw [afterCommand_tickReq]
  cases i <;> simp

end

/-! ## The table of pairs (R101) -/

theorem lowFreq_mem : ∀ r : Fin 4, lowFreq r ∈ [697#16, 770#16, 852#16, 941#16] := by decide

theorem highFreq_mem : ∀ c : Fin 4, highFreq c ∈ [1209#16, 1336#16, 1477#16, 1633#16] := by decide

/-- A pair of the table is a low-group and a high-group frequency. -/
theorem mem_of_lookup {g : Byte} {lo hi : Word} (h : lookup g = some (lo, hi)) :
    lo ∈ [697#16, 770#16, 852#16, 941#16] ∧ hi ∈ [1209#16, 1336#16, 1477#16, 1633#16] := by
  unfold lookup at h
  split at h
  case h_1 r c _ =>
    cases h
    exact ⟨lowFreq_mem r, highFreq_mem c⟩
  case h_2 => cases h

/-! ## Zero in the machine's record -/

/-- The zero that reset and a zeroed level hold is the pattern +0 (log 24). -/
theorem machineNum_zero : machineNum.zero = 0 := by decide

theorem F64.val_zero : F64.val 0 = some 0 := by
  have hf : F64.finite 0 = true := by decide
  have hm : F64.mant 0 = 0 := by decide
  rw [F64.val, if_pos hf, F64.toReal, hm, Nat.cast_zero, mul_zero, zero_mul]

theorem zeroLevels_getElem {R : Type} (N : Num R) (k : Fin 8) : (zeroLevels N)[k] = N.zero := by
  fin_cases k <;> rfl

/-! ## The bits of the status output (R34, R76) -/

theorem getLsbD_append_four_bits (a b c d : BitVec 1) :
    (a ++ (b ++ (c ++ d))).getLsbD 0 = d.getLsbD 0 ∧ (a ++ (b ++ (c ++ d))).getLsbD 1 = c.getLsbD 0 ∧
    (a ++ (b ++ (c ++ d))).getLsbD 2 = b.getLsbD 0 ∧ (a ++ (b ++ (c ++ d))).getLsbD 3 = a.getLsbD 0 := by
  simp only [BitVec.getLsbD_append]
  exact ⟨rfl, rfl, rfl, rfl⟩

theorem bitOf_getLsbD_zero (b : Bool) : (bitOf b).getLsbD 0 = b := by
  cases b <;> rfl

theorem seqBit_getLsbD_zero (q : Seq) : (seqBit q).getLsbD 0 = decide (q = .head) := by
  cases q <;> rfl

/-! ## The statements -/

/-- Settles O26: no command writes a phase, `TBEGIN` and an idle turn leave both, and `CYCLE` changes them by `RENDER` only. -/
theorem phasesChangeOnlyByRenderingOrReset : Obligations.PhasesChangeOnlyByRenderingOrReset := by
  intro s s' h hne
  obtain ⟨w, -, ⟨i, -, rfl⟩ | ⟨e, -, rfl⟩⟩ | ⟨hi, ⟨hs, hc⟩ | ⟨-, -, rfl⟩ | ⟨-, -, rfl⟩⟩ | ⟨hi, rfl⟩ := step_next h
  case inr.inl.inl =>
    obtain ⟨hlo, hhi⟩ | ⟨n, buf, ⟨hp, hact, hcap, hn⟩, hr⟩ := cycle_phases hc
    · simp [hlo, hhi] at hne
    · exact .inl ⟨hi, hs, hp, (bothInactive_eq_false _).1 hact, n, buf, hcap, hn, hr⟩
  case inr.inr => exact .inr ⟨hi, machineNum_zero, machineNum_zero⟩
  all_goals simp at hne

/-- Settles O27: among the commands only `SELECT` writes the frequency registers, and no controller step does. -/
theorem frequenciesChangeOnlyBySelectOrReset : Obligations.FrequenciesChangeOnlyBySelectOrReset := by
  intro s s' h hne
  obtain ⟨w, hi, ⟨i, hd, rfl⟩ | ⟨e, -, rfl⟩⟩ | ⟨-, ⟨-, hc⟩ | ⟨-, -, rfl⟩ | ⟨-, -, rfl⟩⟩ | ⟨hi, rfl⟩ := step_next h
  case inl.inl =>
    obtain ⟨g, rfl, hl⟩ := lookup_of_afterCommand_freq_ne hne
    exact .inl ⟨w, g, hi, hd, hl, mem_of_lookup hl⟩
  case inr.inl.inl => simp [cycle_freq hc] at hne
  case inr.inr => exact .inr ⟨hi, rfl, rfl⟩
  all_goals simp at hne

/-- Settles O29: `SEQ` under each agent; at `HEAD` by `cycle_seq_eq_head`. -/
theorem seqMovesOnlyByControllerSteps : Obligations.SeqMovesOnlyByControllerSteps := by
  intro s s' h
  obtain ⟨w, hi, ⟨i, -, rfl⟩ | ⟨e, -, rfl⟩⟩ | ⟨hi, ⟨hs, hc⟩ | ⟨hs, ht, rfl⟩ | ⟨hs, ht, rfl⟩⟩ | ⟨hi, rfl⟩ := step_next h
  · simp [hi]
  · simp [hi]
  · simpa [hi, hs] using cycle_seq_eq_head (s := takeInput s) hs hc
  · simp [hi, hs, ht]
  · simp [hi, hs, ht]
  · simp [hi]

/-- Settles O30: the latch under each agent, commands by `afterCommand_tickReq_eq_ite` and `CYCLE` by `cycle_tickReq`. -/
theorem tickLatchIsSetByRequestsAndClearedByTbegin : Obligations.TickLatchIsSetByRequestsAndClearedByTbegin := by
  intro s s' h
  obtain ⟨w, hi, ⟨i, hd, rfl⟩ | ⟨e, hd, rfl⟩⟩ | ⟨hi, ⟨hs, hc⟩ | ⟨hs, ht, rfl⟩ | ⟨hs, ht, rfl⟩⟩ | ⟨hi, rfl⟩ := step_next h
  · simp [hi, hd, afterCommand_tickReq_eq_ite]
  · simp [hi, hd]
  · simp [hi, hs, cycle_tickReq hc]
  · simp [hi, hs]
  · simp [hi, hs, ht]
  · simp [hi]

/-- Settles O19: each bit of the concatenation comes from its one-bit part. -/
theorem statusShowsTheFourStateBits : Obligations.StatusShowsTheFourStateBits := by
  intro s
  have hbits := getLsbD_append_four_bits (bitOf s.sinkErr) (bitOf s.tickReq) (seqBit s.seq) (bitOf s.playing)
  simp only [bitOf_getLsbD_zero, seqBit_getLsbD_zero] at hbits
  exact hbits

/-- Settles O23: the reset zeros are `NUM.zero`, which is numerically zero; the other elements are given literally. -/
theorem resetLeavesTheIdleState : Obligations.ResetLeavesTheIdleState := by
  have hz : F64.val machineNum.zero = some 0 := by rw [machineNum_zero, F64.val_zero]
  refine ⟨hz, hz, rfl, rfl, rfl, rfl, rfl, rfl, fun k => ?_, rfl, rfl⟩
  have hk : State.reset.levels[k] = machineNum.zero := zeroLevels_getElem machineNum k
  rw [hk, hz]

end Sys2Proof.Machine

namespace Sys2Proof.Machine

/-- A stream is serialised sample by sample, so the bytes of a stream that grew by `ys` grew by the bytes of `ys`. -/
theorem streamBytes_append (xs ys : List Sample) :
    streamBytes (xs ++ ys) = streamBytes xs ++ streamBytes ys :=
  List.flatMap_append

/-- Settles O22: the byte order is `sampleBytes`' own equation, and the bytes printed for P1 are evaluated. -/
theorem samplesAreSerialisedLittleEndian : Obligations.SamplesAreSerialisedLittleEndian :=
  ⟨fun _ => rfl, streamBytes_append, by decide⟩

end Sys2Proof.Machine

/-! PROOFS. The decoder read off the two bytes of the word, the one response of every command word, the pseudo-instructions and
the sink's answer words (30_encoding.md). -/

namespace Sys2Proof

/-! ## Decoding by `op` and `arg` (R80) -/

section

variable {w : Word}

theorem noArg_eq_ok {a : Byte} {i j : Instr} : noArg a i = .ok j ↔ a = 0x00#8 ∧ i = j := by
  unfold noArg
  split <;> simp [*]

theorem decode_of_op_select (h : w.op = 0x04#8) : decode w = .ok (.select w.arg) := by
  rw [decode, h]; rfl

/-- Under the opcode of a command other than `SELECT` only the argument byte is left to look at. -/
theorem decode_of_op_noArg {i : Instr} (hi : ∀ g, i ≠ .select g) (h : w.op = i.op) : decode w = noArg w.arg i := by
  cases i with
  | select g => exact absurd rfl (hi g)
  | _ => rw [decode, h]; rfl

/-- The two bytes of a command are all that the decoder asks for. -/
theorem decode_of_op_arg (i : Instr) (ho : w.op = i.op) (ha : w.arg = i.arg) : decode w = .ok i := by
  cases i with
  | select g => rw [decode_of_op_select ho, ha]; rfl
  | _ => rw [decode_of_op_noArg (by simp) ho, ha]; rfl

theorem decode_of_arg_ne_zero (i : Instr) (hi : ∀ g, i ≠ .select g) (ho : w.op = i.op) (ha : w.arg ≠ 0x00#8) :
    decode w = .error .argNotZero := by
  rw [decode_of_op_noArg hi ho, noArg_ne_zero ha]

theorem decode_of_op_zero (h : w.op = 0x00#8) : decode w = .error .opZero := by
  rw [decode, h]; rfl

theorem decode_of_op_high (h : 0x08#8 ≤ w.op) : decode w = .error .opHigh := by
  have h8 : 8 ≤ w.op.toNat := h
  unfold decode
  split
  case h_9 => rfl
  all_goals omega

/-- Whatever the decoder accepts has the two bytes of the command it answers. -/
theorem op_arg_of_decode {i : Instr} (h : decode w = .ok i) : w.op = i.op ∧ w.arg = i.arg := by
  unfold decode at h
  split at h
  case h_1 | h_9 => cases h
  case h_5 ho => cases h; exact ⟨BitVec.eq_of_toNat_eq ho, rfl⟩
  all_goals
    rename_i ho
    obtain ⟨ha, rfl⟩ := noArg_eq_ok.1 h
    exact ⟨BitVec.eq_of_toNat_eq ho, ha⟩

/-- A word decodes to a command just where it is the command's own word (R77). -/
theorem decode_eq_ok_iff {i : Instr} : decode w = .ok i ↔ w = encode i := by
  constructor
  · intro h
    obtain ⟨ho, ha⟩ := op_arg_of_decode h
    exact Word.ext_bytes (by rw [ho, encode_op]) (by rw [ha, encode_arg])
  · rintro rfl
    exact decode_of_op_arg i (encode_op i) (encode_arg i)

/-! ## Masks (R77) -/

theorem decode_eq_ok_iff_full_mask {i : Instr} : decode w = .ok i ↔ w &&& 0xFFFF#16 = encode i := by
  have hmask : w &&& 0xFFFF#16 = w := BitVec.and_allOnes
  rw [hmask, decode_eq_ok_iff]

/-- The mask of `SELECT` keeps the opcode byte alone. -/
theorem and_op_mask_eq_iff {o : Byte} : w &&& 0xFF00#16 = o ++ 0x00#8 ↔ w.op = o := by
  have hop : (w &&& 0xFF00#16).op = w.op := by
    rw [Word.op, BitVec.extractLsb'_and]
    exact BitVec.and_allOnes
  have harg : (w &&& 0xFF00#16).arg = 0x00#8 := by
    rw [Word.arg, BitVec.extractLsb'_and]
    exact BitVec.and_zero
  constructor
  · intro h
    rw [← hop, h, Word.op_append]
  · rintro rfl
    exact Word.ext_bytes (by rw [hop, Word.op_append]) (by rw [harg, Word.arg_append])

theorem decode_eq_ok_select_iff {g : Byte} :
    decode w = .ok (.select g) ↔ w &&& 0xFF00#16 = 0x0400#16 ∧ w.arg = g := by
  have hop : w &&& 0xFF00#16 = 0x0400#16 ↔ w.op = 0x04#8 := and_op_mask_eq_iff (o := 0x04#8)
  rw [hop]
  refine ⟨op_arg_of_decode, ?_⟩
  rintro ⟨ho, rfl⟩
  exact decode_of_op_select ho

end

end Sys2Proof

namespace Sys2Proof.Machine

/-! ## Responses (R72) -/

section

variable {R : Type}

/-- A command answers once, never `SINK_UNAVAILABLE`, and with levels just where it is `POLL`. -/
theorem afterCommand_response_spec (i : Instr) (s : State R) :
    ∃ r, (afterCommand i s).response = some r ∧ r.code ≠ .sinkUnavailable ∧ (r.levels.isSome = true ↔ i = .poll) := by
  refine ⟨_, afterCommand_response i s, ?_⟩
  cases i with
  | select g => cases h : lookup g <;> simp [h]
  | _ => simp

/-- `CYCLE` sends no response; even `SinkUnavailable` is reported by `SINK_ERR` alone (R72, R168). -/
theorem cycle_response {N : Num R} {s s' : State R} (h : cycle N s = .next s') : s'.response = s.response := by
  obtain ⟨-, rfl⟩ | ⟨-, -, ⟨-, rfl⟩ | ⟨n, -, -, rfl⟩⟩ | ⟨n, buf, ph, -, -, ⟨-, rfl⟩ | ⟨-, v, -, rfl⟩⟩ := cycle_next h <;> simp

end

/-! ## Pseudo-instructions (R84) -/

theorem answeredOk_afterCommand_select (g : Byte) (s : State) :
    answeredOk (afterCommand (.select g) s) = (lookup g).isSome := by
  rw [answeredOk, afterCommand_response]
  cases h : lookup g <;> simp [h]

/-- `PRESS g` is `SELECT g`, and then `PLAY` just where `g` is a glyph. -/
theorem issue_press (g : Byte) (s : State) : issue (.press g) s =
    .next (if (lookup g).isSome then afterCommand .play (afterCommand (.select g) s) else afterCommand (.select g) s) := by
  simp only [issue, exec_eq, answeredOk_afterCommand_select]
  split <;> rfl

theorem afterCommand_select_some {R : Type} {g : Byte} {lo hi : Word} (h : lookup g = some (lo, hi)) (s : State R) :
    afterCommand (.select g) s = respond .ok (setFreq lo hi s) := by
  simp only [afterCommand, h]

theorem afterCommand_select_none {R : Type} {g : Byte} (h : lookup g = none) (s : State R) :
    afterCommand (.select g) s = respond .invalidSymbol s := by
  simp only [afterCommand, h]

/-! ## The sink's answer words (R74) -/

/-- Format Q taken apart: the top bit decides, the other sixteen are the count. -/
theorem capAnswerOf_append (b : BitVec 1) (n : Word) :
    capAnswerOf (b ++ n) = if b.getLsbD 0 then .ok n else .fail := by
  have hok : (b ++ n).getLsbD 16 = b.getLsbD 0 := by rw [BitVec.getLsbD_append]; rfl
  rw [capAnswerOf, hok, BitVec.extractLsb'_append_eq_right]

/-! ## The statements -/

/-- Settles O32: a command's response is `afterCommand_response_spec`'s, an illegal word's is that of `IllegalCommand`, and
nothing else sends one. -/
theorem everyCommandIsAnsweredOnce : Obligations.EveryCommandIsAnsweredOnce := by
  refine ⟨rfl, rfl, rfl, rfl, fun s s' h => ?_⟩
  obtain ⟨w, hi, ⟨i, hd, rfl⟩ | ⟨e, hd, rfl⟩⟩ | ⟨hi, ⟨-, hc⟩ | ⟨-, -, rfl⟩ | ⟨-, -, rfl⟩⟩ | ⟨hi, rfl⟩ := step_next h
  · simpa [hi, hd] using afterCommand_response_spec i (takeInput s)
  · simp [hi, hd]
  · simp [hi, cycle_response hc]
  · simp [hi]
  · simp [hi]
  · simp [hi]

/-- Settles O1: the opcode decides the branch, and the argument byte the rest of it. -/
theorem everyWordDecodesByOpAndArg : Obligations.EveryWordDecodesByOpAndArg := by
  intro w
  refine ⟨decode_of_op_select, decode_of_op_arg .play, decode_of_op_arg .stop, decode_of_op_arg .toggle,
    decode_of_op_arg .tick, decode_of_op_arg .notify, decode_of_op_arg .poll, decode_of_op_zero, decode_of_op_high,
    fun hmem ha => ?_⟩
  simp only [List.mem_cons, List.not_mem_nil, or_false] at hmem
  obtain ho | ho | ho | ho | ho | ho := hmem
  · exact decode_of_arg_ne_zero .play (by simp) ho ha
  · exact decode_of_arg_ne_zero .stop (by simp) ho ha
  · exact decode_of_arg_ne_zero .toggle (by simp) ho ha
  · exact decode_of_arg_ne_zero .tick (by simp) ho ha
  · exact decode_of_arg_ne_zero .notify (by simp) ho ha
  · exact decode_of_arg_ne_zero .poll (by simp) ho ha

/-- Settles O2: the full mask keeps the word, which is then the command's own; the mask of `SELECT` keeps its opcode. -/
theorem commandWordsMatchTheOpcodeMap : Obligations.CommandWordsMatchTheOpcodeMap := fun _ =>
  ⟨decode_eq_ok_iff_full_mask, decode_eq_ok_iff_full_mask, decode_eq_ok_iff_full_mask, fun _ => decode_eq_ok_select_iff,
    decode_eq_ok_iff_full_mask, decode_eq_ok_iff_full_mask, decode_eq_ok_iff_full_mask⟩

/-- Settles O16: by `issue_press`, on the two outcomes of the lookup. -/
theorem pressStopsAfterARefusedSelect : Obligations.PressStopsAfterARefusedSelect := by
  refine ⟨fun _ => rfl, rfl, fun s g => ⟨rfl, fun lo hi hl => ?_, fun hl => ?_⟩⟩
  · rw [issue_press, afterCommand_select_some hl, hl]; rfl
  · rw [issue_press, afterCommand_select_none hl, hl]; rfl

/-- Settles O21: format Q by `capAnswerOf_append`, format W by evaluating its two words. -/
theorem sinkAnswerWordsAreRead : Obligations.SinkAnswerWordsAreRead :=
  ⟨fun n => ⟨capAnswerOf_append 1#1 n, capAnswerOf_append 0#1 n⟩, rfl, rfl⟩

end Sys2Proof.Machine

/-! PROOFS. The detector's recurrence told sample by sample: its scratch after each prefix of the block, and what `DETECT`
answers from the last one (40_detector.md). -/

namespace Sys2Proof.Machine

section

variable {R : Type} {N : Num R} {xs : List Sample}

/-! ## The scratch after a prefix of the block (R91) -/

/-- `q1` and `q2` of `DETECT` when the first `i` samples of the block have been taken in (R91). -/
def scratchAfter (N : Num R) (xs : List Sample) (rate f i : Nat) : Scratch R :=
  goertzel N (coeff N (angle N rate f)) (xs.take i) { q1 := N.zero, q2 := N.zero }

theorem scratchAfter_zero (rate f : Nat) : scratchAfter N xs rate f 0 = { q1 := N.zero, q2 := N.zero } := rfl

theorem scratchAfter_succ {i : Nat} {x : Sample} (hx : xs[i]? = some x) (rate f : Nat) :
    scratchAfter N xs rate f (i + 1) = goertzelStep N (coeff N (angle N rate f)) (scratchAfter N xs rate f i) x := by
  have htake : xs.take (i + 1) = xs.take i ++ [x] := by rw [List.take_add_one, hx, Option.toList_some]
  rw [scratchAfter, htake, goertzel_append]
  rfl

/-- A block of at least one sample is answered by the magnitude of the scratch left by its last sample (R91, R93). -/
theorem detect_eq_magnitude_scratchAfter (h : xs ≠ []) (rate f : Nat) : detect N xs rate f =
    some (magnitude N (angle N rate f) xs.length (scratchAfter N xs rate f xs.length)) := by
  rw [detect, if_neg (by simpa using h), detectBlock, scratchAfter, List.take_length]

end

/-! ## The statement -/

/-- Settles O60: the two sequences are the fields of `scratchAfter`, which one sample moves by one `goertzelStep`. -/
theorem detectIsTheGoertzelRecurrence : Obligations.DetectIsTheGoertzelRecurrence := by
  intro R N xs rate f hne
  have hstart := scratchAfter_zero (N := N) (xs := xs) rate f
  refine ⟨fun i => (scratchAfter N xs rate f i).q1, fun i => (scratchAfter N xs rate f i).q2,
    congrArg Scratch.q1 hstart, congrArg Scratch.q2 hstart, ?_, ?_⟩
  · intro i x hx
    have hstep := scratchAfter_succ (N := N) hx rate f
    exact ⟨congrArg Scratch.q1 hstep, congrArg Scratch.q2 hstep⟩
  · rintro w half re im rfl rfl rfl rfl
    exact detect_eq_magnitude_scratchAfter hne rate f

end Sys2Proof.Machine

/-! PROOFS. The keypad table read row by row, by the cell of its grid and by the frequency pair of a glyph, and the bank's
eight lanes as eight runs of `DETECT` (41_table_bank.md). -/

namespace Sys2Proof.Machine

section

variable {R : Type} {N : Num R} {xs : List Sample} {g : Byte}

/-! ## `LOOKUP` is the table (R101, R102) -/

/-- A row is found under its own glyph, so no earlier row hides it. -/
theorem key_glyph : ∀ k ∈ keyTable, key k.glyph = some (k.row, k.col) := by decide

theorem exists_row_of_key {rc : Fin 4 × Fin 4} (h : key g = some rc) :
    ∃ k ∈ keyTable, k.glyph = g ∧ (k.row, k.col) = rc := by
  unfold key at h
  split at h
  case h_1 k hk => exact ⟨k, List.mem_of_find?_eq_some hk, by simpa using List.find?_some hk, Option.some.inj h⟩
  case h_2 => cases h

theorem lookup_eq_map_key : lookup g = (key g).map fun rc => (lowFreq rc.1, highFreq rc.2) := by
  cases h : key g <;> simp only [lookup, h] <;> rfl

/-- `LOOKUP` answers exactly with the frequencies of the rows of `KEY`. -/
theorem lookup_eq_some_iff {p : Word × Word} :
    lookup g = some p ↔ ∃ k ∈ keyTable, k.glyph = g ∧ (lowFreq k.row, highFreq k.col) = p := by
  rw [lookup_eq_map_key, Option.map_eq_some_iff]
  constructor
  · rintro ⟨_, hkey, rfl⟩
    obtain ⟨k, hk, hg, rfl⟩ := exists_row_of_key hkey
    exact ⟨k, hk, hg, rfl⟩
  · rintro ⟨k, hk, rfl, rfl⟩
    exact ⟨_, key_glyph k hk, rfl⟩

theorem lookup_isSome_iff : (lookup g).isSome = true ↔ g ∈ keyTable.map KeyRow.glyph := by
  rw [Option.isSome_iff_exists, List.mem_map]
  simp only [lookup_eq_some_iff]
  exact ⟨fun ⟨_, k, hk, hg, _⟩ => ⟨k, hk, hg⟩, fun ⟨k, hk, hg⟩ => ⟨_, k, hk, hg, rfl⟩⟩

/-! ## The 4 x 4 grid (R103) -/

/-- No two rows of `KEY` stand in one cell of the grid. -/
theorem keyTable_cell_inj : ∀ k ∈ keyTable, ∀ k' ∈ keyTable, k.row = k'.row → k.col = k'.col → k = k' := by decide

/-- Every cell of the grid holds a row of `KEY`. -/
theorem keyTable_cell_surj : ∀ r c : Fin 4, ∃ k ∈ keyTable, k.row = r ∧ k.col = c := by decide

theorem lowFreq_injective : Function.Injective lowFreq := by decide

theorem highFreq_injective : Function.Injective highFreq := by decide

/-- The low group is the frequencies of the four rows (R36). -/
theorem ofFn_lowFreq : List.ofFn lowFreq = [697#16, 770#16, 852#16, 941#16] := by decide

/-- The high group is the frequencies of the four columns (R36). -/
theorem ofFn_highFreq : List.ofFn highFreq = [1209#16, 1336#16, 1477#16, 1633#16] := by decide

/-- Codes with one pair are one code: the pair fixes the row and the column, and these fix the entry. -/
theorem lookup_inj {h : Byte} {p : Word × Word} (hg : lookup g = some p) (hh : lookup h = some p) : g = h := by
  obtain ⟨k, hk, rfl, rfl⟩ := lookup_eq_some_iff.mp hg
  obtain ⟨k', hk', rfl, hp⟩ := lookup_eq_some_iff.mp hh
  obtain ⟨hlo, hhi⟩ := Prod.mk.inj hp
  rw [keyTable_cell_inj k hk k' hk' (lowFreq_injective hlo).symm (highFreq_injective hhi).symm]

/-- Each low frequency is paired with each high one: its cell of the grid holds a glyph. -/
theorem exists_lookup_eq {lo hi : Word} (hlo : lo ∈ [697#16, 770#16, 852#16, 941#16])
    (hhi : hi ∈ [1209#16, 1336#16, 1477#16, 1633#16]) : ∃ g : Byte, lookup g = some (lo, hi) := by
  rw [← ofFn_lowFreq] at hlo
  rw [← ofFn_highFreq] at hhi
  obtain ⟨r, rfl⟩ := List.mem_ofFn.mp hlo
  obtain ⟨c, rfl⟩ := List.mem_ofFn.mp hhi
  obtain ⟨k, hk, rfl, rfl⟩ := keyTable_cell_surj r c
  exact ⟨k.glyph, lookup_eq_some_iff.mpr ⟨k, hk, rfl, rfl⟩⟩

/-! ## The bank of eight lanes (R105, R106) -/

theorem detect_of_ne_nil (h : xs ≠ []) (rate f : Nat) : detect N xs rate f = some (detectBlock N xs rate f) := by
  rw [detect, if_neg (by simpa using h)]

/-- `DETECTALL` lists the lanes in canonical order. -/
theorem detectAll_eq_ofFn_lane (h : xs ≠ []) : detectAll N xs = some (Vector.ofFn (lane N xs)) := by
  rw [detectAll, if_neg (by simpa using h)]
  rfl

/-- A lane runs the recurrence and the magnitude on its own constants (R38). -/
theorem lane_eq_magnitude (k : Fin 8) : lane N xs k = magnitude N (laneW N k) xs.length
    (goertzel N (laneCoeff N k) xs { q1 := N.zero, q2 := N.zero }) := rfl

end

/-! ## The statements -/

/-- Settles O18: `LOOKUP` answers with the rows of `KEY`, whose cells are each cell of the grid once. -/
theorem lookupIsInjectiveAndFillsTheGrid : Obligations.LookupIsInjectiveAndFillsTheGrid :=
  ⟨rfl, rfl, by decide, fun _ => lookup_isSome_iff, fun _ _ _ => mem_of_lookup, fun _ _ _ => lookup_inj,
    fun _ hlo _ hhi => exists_lookup_eq hlo hhi⟩

/-- Settles O52: entry `k` is lane `k`, the body of `DETECT` at 8000 and `FREQ[k]`. -/
theorem detectAllRunsEveryLaneOverTheBlock : Obligations.DetectAllRunsEveryLaneOverTheBlock := by
  intro R N xs hne
  refine ⟨_, detectAll_eq_ofFn_lane hne, fun k => ?_⟩
  have hentry : (Vector.ofFn (lane N xs))[k] = lane N xs k := Vector.getElem_ofFn k.isLt
  rw [hentry]
  exact ⟨detect_of_ne_nil hne 8000 _, lane_eq_magnitude k, rfl⟩

end Sys2Proof.Machine

/-! PROOFS. `RENDER` cut at any sample, the one sample between two cuts, and what the loop of `wrap` ends with
(42_generator.md). -/

namespace Sys2Proof.Machine

section

variable {R : Type} {N : Num R} {p : Params} {fLo fHi : Word}

/-! ## `RENDER` in two parts (R117) -/

theorem render_zero (ph : Phases R) : render N p fLo fHi 0 ph = some ([], ph) := rfl

/-- The first sample, then the rest from the advanced phases. -/
theorem render_succ (n : Nat) (ph : Phases R) : render N p fLo fHi (n + 1) ph =
    (advanceBoth N fLo fHi ph).bind fun ph' => (render N p fLo fHi n ph').map fun r =>
      (trunc16 p.ovf (sampleSum N p.volume fLo fHi ph) :: r.1, r.2) := by
  rw [render]
  cases advanceBoth N fLo fHi ph with
  | none => rfl
  | some ph' => cases h : render N p fLo fHi n ph' <;> simp [h]

/-- The phases that the first part leaves are the start of the second. -/
theorem render_add (a b : Nat) (ph : Phases R) : render N p fLo fHi (a + b) ph =
    (render N p fLo fHi a ph).bind fun r => (render N p fLo fHi b r.2).map fun r' => (r.1 ++ r'.1, r'.2) := by
  induction a generalizing ph with
  | zero => rw [Nat.zero_add, render_zero]; simp
  | succ a ih =>
    rw [Nat.succ_add_eq_add_succ, Nat.add_succ, render_succ, render_succ, Option.bind_assoc]
    congr 1
    funext ph'
    rw [ih]
    cases render N p fLo fHi a ph' with
    | none => rfl
    | some r => simp [Function.comp_def]

theorem render_add_eq_some {a b : Nat} {ph q : Phases R} {xs : List Sample} :
    render N p fLo fHi (a + b) ph = some (xs, q) ↔
      ∃ ys m zs, render N p fLo fHi a ph = some (ys, m) ∧ render N p fLo fHi b m = some (zs, q) ∧ ys ++ zs = xs := by
  simp [render_add, Option.bind_eq_some_iff]

/-! ## One sample (R111, R112) -/

theorem render_one_eq_some {q r : Phases R} {xs : List Sample} : render N p fLo fHi 1 q = some (xs, r) ↔
    advanceBoth N fLo fHi q = some r ∧ xs = [trunc16 p.ovf (sampleSum N p.volume fLo fHi q)] := by
  simp [render_succ_eq_some, render_zero]

/-- What one sample does to a phase register: nothing at frequency 0, else the increment and the wrap. -/
theorem advance_eq_some_iff {f : Word} {ph ph' : R} : advance N f ph = some ph' ↔
    if f = 0 then ph' = ph else wrap N (N.add ph (incr N f)) = some ph' := by
  by_cases hf : f = 0
  · rw [hf, advance_zero, if_pos rfl, Option.some.injEq, eq_comm]
  · rw [advance_active N hf, if_neg hf]

/-- A `RENDER` of more than `i` samples has a state before sample `i` and one after it, each left by a `RENDER` of its own. -/
theorem render_at {n i : Nat} {ph ph' : Phases R} {xs : List Sample} (h : render N p fLo fHi n ph = some (xs, ph'))
    (hi : i < n) : ∃ ys zs q r,
      render N p fLo fHi i ph = some (ys, q) ∧ render N p fLo fHi (i + 1) ph = some (zs, r) ∧
      xs[i]? = some (trunc16 p.ovf (sampleSum N p.volume fLo fHi q)) ∧ advanceBoth N fLo fHi q = some r := by
  obtain ⟨m, rfl⟩ := Nat.exists_eq_add_of_lt hi
  rw [Nat.add_right_comm] at h
  obtain ⟨zs, r, ws, hsucc, -, rfl⟩ := render_add_eq_some.1 h
  obtain ⟨ys, q, x, hpre, hone, rfl⟩ := render_add_eq_some.1 hsucc
  obtain ⟨hadv, rfl⟩ := render_one_eq_some.1 hone
  refine ⟨ys, _, q, r, hpre, hsucc, ?_, hadv⟩
  have hlen : ys.length = i := render_length N hpre
  simp [← hlen]

/-! ## Where the loop of `wrap` ends (R113) -/

/-- One pass of the loop: a whole turn is taken away. -/
def turnDown (N : Num R) : R → R := fun x => N.sub x N.twoPi

/-- The loop's condition holds for the first `k` passes from `x`. -/
def LoopsFor (N : Num R) (k : Nat) (x : R) : Prop := ∀ j, j < k → N.lt ((turnDown N)^[j] x) N.twoPi = false

theorem loopsFor_zero (x : R) : LoopsFor N 0 x := fun _ hj => absurd hj (Nat.not_lt_zero _)

theorem loopsFor_succ {k : Nat} {x : R} :
    LoopsFor N (k + 1) x ↔ N.lt x N.twoPi = false ∧ LoopsFor N k (turnDown N x) :=
  Nat.forall_lt_succ_left

/-- Passes that the condition allows can be run off before the others. -/
theorem wrapLoop_of_loopsFor {k : Nat} {x : R} (h : LoopsFor N k x) (n : Nat) :
    wrapLoop N (n + k) x = wrapLoop N n ((turnDown N)^[k] x) := by
  induction k generalizing x with
  | zero => rfl
  | succ k ih =>
    obtain ⟨hx, hk⟩ := loopsFor_succ.1 h
    rw [← Nat.add_assoc, wrapLoop_above N hx, Function.iterate_succ_apply]
    exact ih hk

/-- A loop that ends has run some number of passes, each allowed by the condition. -/
theorem exists_loopsFor_of_wrapLoop {n : Nat} {x q : R} (h : wrapLoop N n x = some q) :
    ∃ k, q = (turnDown N)^[k] x ∧ LoopsFor N k x := by
  induction n generalizing x with
  | zero =>
    rw [wrapLoop] at h
    split at h
    · cases h
    · exact ⟨0, (Option.some.inj h).symm, loopsFor_zero x⟩
  | succ n ih =>
    cases hx : N.lt x N.twoPi with
    | true =>
      rw [wrapLoop_below N hx, Option.some.injEq] at h
      exact ⟨0, h.symm, loopsFor_zero x⟩
    | false =>
      rw [wrapLoop_above N hx] at h
      obtain ⟨k, hq, hk⟩ := ih h
      exact ⟨k + 1, hq, loopsFor_succ.2 ⟨hx, hk⟩⟩

theorem wrapsTo_iff_loopsFor {x q : R} : WrapsTo N x q ↔
    N.lt q N.twoPi = true ∧ ∃ k, q = (turnDown N)^[k] x ∧ LoopsFor N k x := by
  constructor
  · exact fun h => ⟨wrapsTo_lt N h, h.elim fun _ => exists_loopsFor_of_wrapLoop⟩
  · rintro ⟨hlt, k, rfl, hk⟩
    exact ⟨0 + k, by rw [wrapLoop_of_loopsFor hk, wrapLoop_below N hlt]⟩

/-- `wrap` gives what the unbounded loop ends with, however many passes it tries first. -/
theorem wrap_eq_some_iff_wrapsTo {x q : R} : wrap N x = some q ↔ WrapsTo N x q := by
  rw [wrap_eq_wrapWhile]
  exact ⟨wrapsTo_of_wrapWhile N x q, fun ⟨_, hn⟩ => wrapWhile_of_wrapLoop N hn⟩

/-- NUM-WRAP keeps a phase register in its range (R22): an inactive one stays, an active one is wrapped. -/
theorem exists_advance_inTurn (hw : NumWrap N) {f : Word} {ph : R} (hph : N.inTurn ph = true)
    (hinc : N.ge (incr N f) N.zero = true) : ∃ q, advance N f ph = some q ∧ N.inTurn q = true := by
  by_cases hf : f = 0
  · rw [hf, advance_zero]
    exact ⟨ph, rfl, hph⟩
  · obtain ⟨q, hq, hin⟩ := hw ph (incr N f) hph hinc
    exact ⟨q, by rw [advance_active N hf, wrap_eq_some_iff_wrapsTo.2 hq], hin⟩

end

/-! ## The statements -/

/-- Settles O41, by induction on the first count. -/
theorem renderingTwiceIsRenderingOnce : Obligations.RenderingTwiceIsRenderingOnce := by
  intro R N p fLo fHi a b ph
  rw [render_add]
  cases render N p fLo fHi a ph with
  | none => rfl
  | some r => cases h : render N p fLo fHi b r.2 <;> simp [h]

/-- Settles O42: the `RENDER` is cut before and after sample `i`. -/
theorem eachSampleComesFromThePhasesBeforeIt : Obligations.EachSampleComesFromThePhasesBeforeIt := by
  intro R N p fLo fHi n ph ph' xs h
  refine ⟨render_length N h, ?_, fun i hi => ?_⟩
  · rintro rfl
    rw [render_zero, Option.some.injEq, Prod.mk.injEq] at h
    exact h.2.symm
  · obtain ⟨ys, zs, q, r, hpre, hsucc, hx, hadv⟩ := render_at h hi
    obtain ⟨hlo, hhi⟩ := (advanceBoth_eq_some N).1 hadv
    exact ⟨ys, zs, q, r, hpre, hsucc, hx, advance_eq_some_iff.1 hlo, advance_eq_some_iff.1 hhi⟩

/-- Settles O44: `wrap` is the loop itself, which ends after the passes its condition allows. -/
theorem phaseAdvancesByItsIncrementAndWraps : Obligations.PhaseAdvancesByItsIncrementAndWraps := fun _ N =>
  ⟨fun _ ph hf => advance_active N hf ph, fun _ _ => wrap_eq_some_iff_wrapsTo,
    fun _ _ => wrap_eq_some_iff_wrapsTo.trans wrapsTo_iff_loopsFor, fun hw _ _ => exists_advance_inTurn hw⟩

end Sys2Proof.Machine

/-! PROOFS. Each command as an equation for the whole next state, the three turns of the controller, and `CYCLE` branch by
branch with the sink's answers (43_controller.md). -/

namespace Sys2Proof.Machine

/-! ## `PLAYING` under `CYCLE` (R132) -/

/-- `CYCLE` keeps `PLAYING` unless it enters `SinkUnavailable`, which clears it and sets `SINK_ERR` (R168). -/
theorem cycle_playing {R : Type} {N : Num R} {s s' : State R} (h : cycle N s = .next s') :
    s'.playing = s.playing ∨ (s'.playing = false ∧ s'.sinkErr = true) := by
  obtain ⟨-, rfl⟩ | ⟨-, -, ⟨-, rfl⟩ | ⟨n, -, -, rfl⟩⟩ | ⟨n, buf, ph, -, -, ⟨-, rfl⟩ | ⟨-, v, -, rfl⟩⟩ := cycle_next h
  · exact .inl rfl
  · exact .inr ⟨rfl, rfl⟩
  · exact .inl rfl
  · exact .inr ⟨rfl, rfl⟩
  · exact .inl rfl

/-- A command that changes `PLAYING` is `PLAY`, `STOP` or `TOGGLE`. -/
theorem playing_writer_of_ne {R : Type} {i : Instr} {s : State R} (h : (afterCommand i s).playing ≠ s.playing) :
    (i = .play ∧ (afterCommand i s).playing = true) ∨ (i = .stop ∧ (afterCommand i s).playing = false) ∨
      i = .toggle := by
  rw [afterCommand_playing] at h ⊢
  cases i with
  | play | stop | toggle => simp
  | select | tick | notify | poll => exact absurd rfl h

/-! ## `TOGGLE` in its two modes (R135) -/

theorem afterCommand_toggle_of_idle {R : Type} {s : State R} (h : s.playing = false) :
    afterCommand .toggle s = respond .ok (turnOn s) := by
  rw [afterCommand, h]; rfl

theorem afterCommand_toggle_of_streaming {R : Type} {s : State R} (h : s.playing = true) :
    afterCommand .toggle s = respond .ok (turnOff s) := by
  rw [afterCommand, h]; rfl

/-! ## `LOOKUP` outside the table (R101) -/

theorem lookup_eq_none_of_forall_ne {g : Byte} (h : ∀ k ∈ keyTable, k.glyph ≠ g) : lookup g = none := by
  rw [Option.eq_none_iff_forall_ne_some]
  intro p hp
  obtain ⟨k, hk, hg, -⟩ := lookup_eq_some_iff.1 hp
  exact h k hk hg

/-! ## The controller's turn (R140, R141, R149) -/

section

variable {R : Type} {N : Num R} {s : State R}

theorem quiescent_iff : quiescent s = true ↔ s.seq = .rest ∧ s.tickReq = false := by
  simp [quiescent]

theorem controllerTurn_of_head (h : s.seq = .head) : controllerTurn N s = cycle N s :=
  if_pos (decide_eq_true h)

theorem controllerTurn_of_tick (hs : s.seq = .rest) (ht : s.tickReq = true) :
    controllerTurn N s = .next (tbegin s) := by
  simp [controllerTurn, cycleEnabled, tbeginEnabled, hs, ht]

theorem controllerTurn_of_quiescent (h : quiescent s = true) : controllerTurn N s = .next s := by
  obtain ⟨hs, ht⟩ := quiescent_iff.1 h
  simp [controllerTurn, cycleEnabled, tbeginEnabled, hs, ht]

theorem step_of_controller {s : State} (h : nextInput s.agents = .controller) :
    step s = controllerTurn machineNum (takeInput s) := by
  rw [step, h, takeTurn]

/-! ## The sink's answers (R56, R57, R58) -/

variable {k : SinkPort}

theorem nextCap_of_cons {a : CapAnswer} {r : List CapAnswer} (h : k.capScript = a :: r) : nextCap k = a := by
  rw [nextCap, h]

theorem nextCap_of_nil (h : k.capScript = []) : nextCap k = capAnswerOf (Config.sinkCapWord k.capAsked) := by
  rw [nextCap, h]

theorem capDone_of_nil (h : k.capScript = []) : capDone k = { k with capAsked := k.capAsked + 1 } := by
  rw [capDone, h, List.tail_nil]

theorem capDone_of_cons {a : CapAnswer} {r : List CapAnswer} (h : k.capScript = a :: r) :
    capDone k = { k with capScript := r, capAsked := k.capAsked + 1 } := by
  rw [capDone, h, List.tail_cons]

theorem nextWr_of_cons {a : WrAnswer} {r : List WrAnswer} (h : k.wrScript = a :: r) : nextWr k = a := by
  rw [nextWr, h]

theorem nextWr_of_nil (h : k.wrScript = []) : nextWr k = wrAnswerOf (Config.sinkWrBit k.wrAsked) := by
  rw [nextWr, h]

/-- A query does not change what the sink answers to the next write (R57). -/
@[simp] theorem nextWr_capDone : nextWr (capDone k) = nextWr k := rfl

theorem wrDone_of_ok (buf : List Sample) (h : nextWr k = .ok) :
    wrDone buf k = { k with wrScript := k.wrScript.tail, wrAsked := k.wrAsked + 1, stream := k.stream ++ buf } := by
  rw [wrDone, h]

theorem wrDone_of_fail (buf : List Sample) (h : nextWr k = .fail) :
    wrDone buf k = { k with wrScript := k.wrScript.tail, wrAsked := k.wrAsked + 1 } := by
  rw [wrDone, h]

/-! ## `CYCLE`, one equation per branch (R141, R146) -/

theorem bothInactive_iff : bothInactive s = true ↔ s.fLo = 0 ∧ s.fHi = 0 := by
  simp [bothInactive]

theorem cycle_of_idle (h : s.playing = false ∨ bothInactive s = true) : cycle N s = .next (idleCycle N s) :=
  if_pos (by simpa using h)

theorem controllerTurn_of_idle_head (hs : s.seq = .head) (hp : s.playing = false) :
    controllerTurn N s = .next (idleCycle N s) := by
  rw [controllerTurn_of_head hs, cycle_of_idle (.inl hp)]

/-- A block that streams an active pair asks the sink. -/
theorem cycle_of_streaming (hp : s.playing = true) (hact : bothInactive s = false) : cycle N s = pullCycle N s :=
  if_neg (by simp [hp, hact])

theorem pullCycle_of_cap_fail (hc : nextCap s.sink = .fail) :
    pullCycle N s = .next (raise N .sinkUnavailable (sinkCap s).2) := by
  simp only [pullCycle, sinkCap, hc]

theorem pullCycle_of_cap_ok {n : Word} (hc : nextCap s.sink = .ok n) : pullCycle N s =
    if n.toNat < s.params.threshold then .next (setSeq .rest (sinkCap s).2) else renderCycle N n.toNat (sinkCap s).2 := by
  simp only [pullCycle, sinkCap, hc]

theorem cycle_of_renders {n : Word} (h : Renders s n) : cycle N s = renderCycle N n.toNat (sinkCap s).2 := by
  obtain ⟨hp, hact, hc, hn⟩ := h
  rw [cycle_of_streaming hp hact, pullCycle_of_cap_ok hc, if_neg (Nat.not_lt.2 hn)]

theorem cycle_of_rendered_none {n : Word} (h : Renders s n) (hr : rendered N s n = none) :
    cycle N s = .fault .phaseWrapDiverges := by
  rw [rendered] at hr
  simp [cycle_of_renders h, renderCycle, hr]

section

variable {n : Word} {buf : List Sample} {ph : Phases R} (h : Renders s n) (hr : rendered N s n = some (buf, ph))
include h hr

theorem cycle_of_rendered_some : cycle N s = writeAndDetect N buf (setPhases ph.lo ph.hi (sinkCap s).2) := by
  rw [rendered] at hr
  simp [cycle_of_renders h, renderCycle, hr]

/-- The sink accepts the chunk: it is detected, and `L` is overwritten. -/
theorem cycle_of_write_ok (hw : nextWr s.sink = .ok) {v : Vector R 8} (hd : detectAll N buf = some v) :
    cycle N s = .next (afterChunk ph buf v s) := by
  rw [cycle_of_rendered_some h hr]
  simp [writeAndDetect, sinkWrite, afterChunk, hw, hd]

/-- The sink refuses the chunk: the entry of `SinkUnavailable`, and nothing is detected. -/
theorem cycle_of_write_fail (hw : nextWr s.sink = .fail) : cycle N s = .next (afterLostChunk N ph buf s) := by
  rw [cycle_of_rendered_some h hr]
  simp [writeAndDetect, sinkWrite, afterLostChunk, hw]

end

/-! ## The states after a chunk, written out -/

theorem afterChunk_eq_of_ok (ph : Phases R) (buf : List Sample) (v : Vector R 8) (hw : nextWr s.sink = .ok) :
    afterChunk ph buf v s = { s with
      phLo := ph.lo, phHi := ph.hi, levels := v
      sink := { capDone s.sink with
        wrScript := s.sink.wrScript.tail, wrAsked := s.sink.wrAsked + 1, stream := s.sink.stream ++ buf } } :=
  congrArg (fun k => { s with phLo := ph.lo, phHi := ph.hi, levels := v, sink := k })
    (wrDone_of_ok (k := capDone s.sink) buf hw)

theorem afterLostChunk_eq_of_fail (ph : Phases R) (buf : List Sample) (hw : nextWr s.sink = .fail) :
    afterLostChunk N ph buf s = { s with
      phLo := ph.lo, phHi := ph.hi
      playing := false, levels := zeroLevels N, sinkErr := true, seq := .rest
      sink := { capDone s.sink with wrScript := s.sink.wrScript.tail, wrAsked := s.sink.wrAsked + 1 } } :=
  congrArg (fun k => { s with
      phLo := ph.lo, phHi := ph.hi, playing := false, levels := zeroLevels N, sinkErr := true, seq := .rest, sink := k })
    (wrDone_of_fail (k := capDone s.sink) buf hw)

end

/-! ## The statements -/

/-- Settles O25: among the commands the three writers, in the controller the `SinkUnavailable` entry alone. -/
theorem playingChangesOnlyByItsWriters : Obligations.PlayingChangesOnlyByItsWriters := by
  intro s s' h hne
  obtain ⟨w, hi, ⟨i, hd, rfl⟩ | ⟨e, -, rfl⟩⟩ | ⟨hi, ⟨hs, hc⟩ | ⟨-, -, rfl⟩ | ⟨-, -, rfl⟩⟩ | ⟨hi, rfl⟩ := step_next h
  case inl.inl =>
    refine .inl ⟨w, hi, ?_⟩
    obtain ⟨rfl, hp⟩ | ⟨rfl, hp⟩ | rfl := playing_writer_of_ne hne
    · exact .inl ⟨hd, hp⟩
    · exact .inr (.inl ⟨hd, hp⟩)
    · exact .inr (.inr hd)
  case inr.inl.inl =>
    obtain hkeep | ⟨hp, he⟩ := cycle_playing hc
    · exact absurd hkeep hne
    · exact .inr (.inl ⟨hi, hs, hp, he⟩)
  case inr.inr => exact .inr (.inr ⟨hi, rfl⟩)
  all_goals exact absurd rfl hne

/-- Settles O38: the sink's answers by the head of its scripts, then `CYCLE` by the equation of each branch; a chunk of at
least one sample is never empty, so it is detected. -/
theorem cycleIsOnePassOfThePullLoop : Obligations.CycleIsOnePassOfThePullLoop := by
  refine ⟨fun k => ⟨fun a r h => ⟨nextCap_of_cons h, capDone_of_cons h⟩, fun h => ⟨nextCap_of_nil h, capDone_of_nil h⟩,
    fun a r => nextWr_of_cons, nextWr_of_nil⟩, fun R N s => ⟨fun h => ?idle, fun hp hf hc => ?queryFailed,
    fun n hp hf hc hn => ?low, fun n hp hf hc hn hpos => ?chunk⟩⟩
  case idle => exact cycle_of_idle (h.imp_right bothInactive_iff.2)
  all_goals have hact := (bothInactive_eq_false s).2 hf
  case queryFailed => rw [cycle_of_streaming hp hact, pullCycle_of_cap_fail hc]; rfl
  case low => rw [cycle_of_streaming hp hact, pullCycle_of_cap_ok hc, if_pos hn]; rfl
  case chunk =>
    have hren : Renders s n := ⟨hp, hact, hc, hn⟩
    refine ⟨cycle_of_rendered_none hren, fun buf ph hr => ?_⟩
    have hlen : buf.length = n.toNat := render_length N hr
    refine ⟨hlen, fun hw => ?_, fun hw => ?_⟩
    · have hne : buf ≠ [] := List.length_pos_iff.1 (by omega)
      obtain ⟨v, hd⟩ := detectAll_of_ne_nil N hne
      exact ⟨v, hd, by rw [cycle_of_write_ok hren hr hw hd, afterChunk_eq_of_ok ph buf v hw]⟩
    · rw [cycle_of_write_fail hren hr hw, afterLostChunk_eq_of_fail ph buf hw]

/-- Settles O8: the equation of `exec` for `PLAY`. -/
theorem playTurnsPlayingOnAndClearsSinkErr : Obligations.PlayTurnsPlayingOnAndClearsSinkErr :=
  ⟨rfl, exec_eq .play⟩

/-- Settles O9: the equation of `exec` for `STOP`. -/
theorem stopTurnsPlayingOffAndNothingElse : Obligations.StopTurnsPlayingOffAndNothingElse :=
  ⟨rfl, exec_eq .stop⟩

/-- Settles O10: one equation per mode; twice inverted, `PLAYING` is what it was. -/
theorem toggleInvertsPlaying : Obligations.ToggleInvertsPlaying := by
  refine ⟨rfl, fun s => ⟨fun h => ?_, fun h => ?_, _, _, exec_eq _ _, exec_eq _ _, ?_⟩⟩
  · rw [exec_eq, afterCommand_toggle_of_idle h]; rfl
  · rw [exec_eq, afterCommand_toggle_of_streaming h]; rfl
  · simp [afterCommand_playing]

/-- Settles O11: the code of a row of `KEY` is looked up to the row's pair, and every other code to none. -/
theorem selectSetsThePairOfItsGlyph : Obligations.SelectSetsThePairOfItsGlyph := by
  refine ⟨fun _ => rfl, fun _ _ _ => rfl, fun s => ⟨fun k hk => ?_, fun g hg => ?_⟩⟩
  · have hl : lookup k.glyph = some (lowFreq k.row, highFreq k.col) := lookup_eq_some_iff.2 ⟨k, hk, rfl, rfl⟩
    refine ⟨hl, ?_⟩
    rw [exec_eq, afterCommand_select_some hl]; rfl
  · have hl := lookup_eq_none_of_forall_ne hg
    refine ⟨hl, ?_⟩
    rw [exec_eq, afterCommand_select_none hl]; rfl

/-- Settles O13: the equation of `exec` for `TICK`. -/
theorem tickAsksForATick : Obligations.TickAsksForATick :=
  ⟨rfl, exec_eq .tick⟩

/-- Settles O14: the two commands leave the same state. -/
theorem notifyActsAsTick : Obligations.NotifyActsAsTick :=
  ⟨rfl, fun s => ⟨exec_eq .notify s, (exec_eq .notify s).trans (exec_eq .tick s).symm⟩⟩

/-- Settles O15: the equation of `exec` for `POLL`. -/
theorem pollAnswersTheLevelVector : Obligations.PollAnswersTheLevelVector :=
  ⟨rfl, exec_eq .poll⟩

/-- Settles O36: the controller's turn at `HEAD`, and at `REST` with and without a tick pending. -/
theorem controllerTakesTheEnabledStep : Obligations.ControllerTakesTheEnabledStep := by
  refine fun s => ⟨quiescent_iff, fun hi => ?_⟩
  rw [step_of_controller hi]
  exact ⟨fun hs ht => controllerTurn_of_tick hs ht, fun hq => controllerTurn_of_quiescent hq,
    fun hs => controllerTurn_of_head hs⟩

/-- Settles O37: `TBEGIN` at `REST`, then the idle branch of `CYCLE`, twice. -/
theorem idleTickOnlyZeroesTheLevels : Obligations.IdleTickOnlyZeroesTheLevels := by
  intro R N s hp hs ht
  refine ⟨controllerTurn_of_tick hs ht, ?_, ?_⟩ <;> rw [hs]
  · exact controllerTurn_of_idle_head rfl hp
  · exact controllerTurn_of_idle_head rfl hp

end Sys2Proof.Machine

/-! PROOFS. The two exceptions a command raises, `InvalidSymbol` and `IllegalCommand`: each changes nothing but the response
(60_exceptions.md). -/

namespace Sys2Proof.Machine

/-! ## Illegal words (R80, R163) -/

/-- The word of no command is one that the decoder rejects. -/
theorem exists_decode_eq_error {w : Word} (h : ∀ i, encode i ≠ w) : ∃ e, decode w = .error e := by
  cases hd : decode w with
  | error e => exact ⟨e, rfl⟩
  | ok i => exact absurd (decode_eq_ok_iff.1 hd).symm (h i)

/-- A rejected word raises `IllegalCommand`, whichever way it is illegal (R81). -/
theorem step_of_illegal_command {s : State} {w : Word} {e : IllegalWord} (hi : nextInput s.agents = .command w)
    (hd : decode w = .error e) : step s = .next (raise machineNum .illegalCommand (takeInput s)) := by
  simp only [step, hi, takeTurn, takeCommand, hd]

/-! ## The statements -/

/-- Settles O6: the word of no command does not decode, and the entry of `IllegalCommand` is its response alone. -/
theorem illegalWordIsAnsweredAndChangesNothing : Obligations.IllegalWordIsAnsweredAndChangesNothing := by
  intro s w hi hw
  obtain ⟨e, hd⟩ := exists_decode_eq_error hw
  exact ⟨step_of_illegal_command hi hd, rfl⟩

/-- Settles O12: the clause of `selectSetsThePairOfItsGlyph` for a code that is no glyph, and the code of the response. -/
theorem selectOfNoGlyphChangesNothing : Obligations.SelectOfNoGlyphChangesNothing := by
  intro s g hg
  obtain ⟨-, -, hselect⟩ := selectSetsThePairOfItsGlyph
  obtain ⟨-, hnone⟩ := hselect s
  obtain ⟨hl, he⟩ := hnone g hg
  exact ⟨hl, he, rfl⟩

end Sys2Proof.Machine

/-! PROOFS. Reset between two steps, whatever was in progress (70_reset_and_hazards.md). -/

namespace Sys2Proof.Machine

/-! ## The state reset leaves (R186) -/

section

variable {R : Type} (N : Num R) (s : State R)

theorem quiescent_construct : quiescent (construct N s) = true :=
  quiescent_iff.2 ⟨construct_seq s N, construct_tickReq s N⟩

theorem status_construct : status (construct N s) = 0b0000#4 := by
  simp only [status, construct_sinkErr, construct_tickReq, construct_seq, construct_playing]
  decide

end

/-- In the machine's record reset gives `State.reset`, but for the parameters and the far sides of the ports (log 17). -/
theorem construct_machineNum_eq (s : State) : construct machineNum s =
    { State.reset with params := s.params, sink := s.sink, agents := s.agents, response := none } := rfl

/-- Reset acts on the state in which its input is taken (R185), and completes in every one. -/
theorem step_of_reset {s : State} (hi : nextInput s.agents = .reset) :
    step s = .next (construct machineNum (takeInput s)) := by
  simp only [step, hi, takeTurn]

/-! ## The statement -/

/-- Settles O24: a reset step is `construct` on the state with the input taken, which keeps the parameters and the sink. -/
theorem resetStepRestoresEveryElement : Obligations.ResetStepRestoresEveryElement := by
  intro s hi
  refine ⟨construct machineNum (takeInput s), step_of_reset hi, ?_, quiescent_construct _ _, status_construct _ _⟩
  rw [construct_machineNum_eq, takeInput_params, takeInput_sink]

end Sys2Proof.Machine

/-! PROOFS. What a step does to the level vector, `SINK_ERR`, the sink stream and the parameters; the levels as an output only; and
the words, tables and codes that are written out (10_state.md, 20_memory.md, 43_controller.md). -/

namespace Sys2Proof.Machine

/-! ## What `CYCLE` does to a field (R141) -/

section

variable {R : Type} {N : Num R} {s s' : State R}

/-- `CYCLE` keeps `L`, zeroes it, or overwrites it with the levels of the chunk that it has just streamed (R62, R64). -/
theorem cycle_levels (h : cycle N s = .next s') : s'.levels = s.levels ∨ s'.levels = zeroLevels N ∨
    ∃ buf, detectAll N buf = some s'.levels ∧ s'.sink.stream = s.sink.stream ++ buf := by
  obtain ⟨-, rfl⟩ | ⟨-, -, ⟨-, rfl⟩ | ⟨n, -, -, rfl⟩⟩ | ⟨n, buf, ph, -, -, ⟨-, rfl⟩ | ⟨hw, v, hd, rfl⟩⟩ := cycle_next h
  · exact .inr (.inl rfl)
  · exact .inr (.inl rfl)
  · exact .inl rfl
  · exact .inr (.inl rfl)
  · exact .inr (.inr ⟨buf, hd, wrDone_stream_ok (capDone s.sink) buf hw⟩)

/-- `CYCLE` keeps `SINK_ERR` unless the sink fails its query or its write, and then it sets it and ends the tick (R168). -/
theorem cycle_sinkErr (h : cycle N s = .next s') : s'.sinkErr = s.sinkErr ∨
    (s'.sinkErr = true ∧ s'.seq = .rest ∧
      (nextCap s.sink = .fail ∨ (nextWr s.sink = .fail ∧ s'.sink.wrAsked = s.sink.wrAsked + 1))) := by
  obtain ⟨-, rfl⟩ | ⟨-, -, ⟨hc, rfl⟩ | ⟨n, -, -, rfl⟩⟩ | ⟨n, buf, ph, -, -, ⟨hw, rfl⟩ | ⟨-, v, -, rfl⟩⟩ := cycle_next h
  · exact .inl rfl
  · exact .inr ⟨rfl, rfl, .inl hc⟩
  · exact .inl rfl
  · exact .inr ⟨rfl, rfl, .inr ⟨hw, rfl⟩⟩
  · exact .inl rfl

/-- `CYCLE` keeps the sink stream, or it appends the one chunk that it has rendered and the sink has accepted (R58, R60). -/
theorem cycle_stream (h : cycle N s = .next s') : s'.sink.stream = s.sink.stream ∨
    (nextWr s.sink = .ok ∧ ∃ n buf ph, Renders s n ∧ rendered N s n = some (buf, ph) ∧
      s'.sink.stream = s.sink.stream ++ buf) := by
  obtain ⟨-, rfl⟩ | ⟨-, -, ⟨-, rfl⟩ | ⟨n, -, -, rfl⟩⟩ | ⟨n, buf, ph, hren, hr, ⟨hw, rfl⟩ | ⟨hw, v, -, rfl⟩⟩ := cycle_next h
  · exact .inl rfl
  · exact .inl rfl
  · exact .inl rfl
  · exact .inl (wrDone_stream_fail (capDone s.sink) buf hw)
  · exact .inr ⟨hw, n, buf, ph, hren, hr, wrDone_stream_ok (capDone s.sink) buf hw⟩

/-- `CYCLE` writes no parameter (R33). -/
theorem cycle_params (h : cycle N s = .next s') : s'.params = s.params := by
  obtain ⟨-, rfl⟩ | ⟨-, -, ⟨-, rfl⟩ | ⟨n, -, -, rfl⟩⟩ | ⟨n, buf, ph, -, -, ⟨-, rfl⟩ | ⟨-, v, -, rfl⟩⟩ := cycle_next h <;> simp

/-- `CYCLE` from other levels leaves the same state, or it is the branch that keeps `L`, and then the other levels stay. -/
theorem cycle_setLevels (v : Vector R 8) (h : cycle N s = .next s') : cycle N (setLevels v s) = .next s' ∨
    (s'.levels = s.levels ∧ cycle N (setLevels v s) = .next (setLevels v s')) := by
  obtain ⟨hi, rfl⟩ | ⟨hp, ha, ⟨hc, rfl⟩ | ⟨n, hc, hn, rfl⟩⟩ | ⟨n, buf, ph, ⟨hp, ha, hc, hn⟩, hr, hw⟩ := cycle_next h
  · exact .inl (cycle_of_idle (s := setLevels v s) hi)
  · exact .inl (by rw [cycle_of_streaming (s := setLevels v s) hp ha, pullCycle_of_cap_fail (s := setLevels v s) hc]; rfl)
  · refine .inr ⟨rfl, ?_⟩
    rw [cycle_of_streaming (s := setLevels v s) hp ha, pullCycle_of_cap_ok (s := setLevels v s) hc]
    exact if_pos hn
  · have hren : Renders (setLevels v s) n := ⟨hp, ha, hc, hn⟩
    obtain ⟨hw, rfl⟩ | ⟨hw, u, hd, rfl⟩ := hw
    · exact .inl (cycle_of_write_fail hren hr hw)
    · exact .inl (cycle_of_write_ok hren hr hw hd)

end

/-! ## What a command does to a field -/

section

variable {R : Type} {i : Instr} {s : State R}

/-- A command that changes `SINK_ERR` clears it, and is `PLAY` or a `TOGGLE` in `Idle` (R31). -/
theorem sinkErr_writer_of_ne (h : (afterCommand i s).sinkErr ≠ s.sinkErr) :
    (afterCommand i s).sinkErr = false ∧ (i = .play ∨ (i = .toggle ∧ s.playing = false)) := by
  rw [afterCommand_sinkErr] at h ⊢
  cases i with
  | play => simp
  | toggle => cases hp : s.playing <;> simp [hp] at h ⊢
  | stop | select | tick | notify | poll => exact absurd rfl h

/-- Other levels before a command are other levels after it and, in the response to `POLL`, nothing else is. -/
theorem afterCommand_setLevels (i : Instr) (v : Vector R 8) (s : State R) :
    { afterCommand i (setLevels v s) with levels := s.levels, response := (afterCommand i s).response } = afterCommand i s ∧
    (afterCommand i (setLevels v s)).response.map Response.code = (afterCommand i s).response.map Response.code := by
  cases i with
  | toggle => cases h : s.playing <;> simp [afterCommand, h] <;> rfl
  | select g => cases h : lookup g <;> simp [afterCommand, h] <;> rfl
  | _ => exact ⟨rfl, rfl⟩

end

/-! ## A step under each agent (R130) -/

section

variable {s : State} {w : Word}

/-- A word that decodes is run on the state with the input taken. -/
theorem step_of_command {i : Instr} (hi : nextInput s.agents = .command w) (hd : decode w = .ok i) :
    step s = exec i (takeInput s) := by
  simp only [step, hi, takeTurn, takeCommand, hd]

theorem exec_eq_execIn (i : Instr) (s : State) : exec i s = execIn machineNum i s := by
  rw [exec_eq, execIn_eq]

/-- The machine's step is that of its own record (log 9). -/
theorem step_eq_stepIn (s : State) : step s = stepIn machineNum s := by
  have hrun : exec = execIn machineNum := funext fun i => funext (exec_eq_execIn i)
  rw [step, stepIn, hrun]

/-- An input at the front of the script leaves it when it is taken. -/
theorem takeInput_of_cons {i : Input} {rest : List Input} (h : s.agents.script = i :: rest) :
    takeInput s = { s with agents := { s.agents with script := rest }, response := none } := by
  simp only [takeInput, inputDone, h]

theorem nextInput_of_cons {a : Agents} {i : Input} {rest : List Input} (h : a.script = i :: rest) : nextInput a = i := by
  rw [nextInput, h]

theorem takeInput_withFetchWord (s : State) (nbits n : Nat) :
    takeInput (s.withFetchWord nbits n) = { s with response := none } := rfl

theorem nextInput_withFetchWord (s : State) (w : Word) : nextInput (s.withFetchWord 16 w.toNat).agents = .command w := by
  change Input.command (BitVec.ofNat 16 (w.toNat % 2 ^ 16)) = .command w
  rw [Nat.mod_eq_of_lt w.isLt, BitVec.ofNat_toNat, BitVec.setWidth_eq]

end

/-! ## What the levels held before a step can reach (R131) -/

/-- `t'`, left by a run from `s` with the levels `v`, differs from `s'`, left by the run from `s` itself, only in the levels, where
neither run wrote them, and in the levels that the response carries. -/
structure DiffersInLevels (s : State) (v : Vector F64 8) (s' t' : State) : Prop where
  rest : { t' with levels := s'.levels, response := s'.response } = s'
  levels : t'.levels = s'.levels ∨ (t'.levels = v ∧ s'.levels = s.levels)
  code : t'.response.map Response.code = s'.response.map Response.code

theorem DiffersInLevels.refl (s : State) (v : Vector F64 8) (s' : State) : DiffersInLevels s v s' s' := ⟨rfl, .inl rfl, rfl⟩

theorem DiffersInLevels.setLevels {s s' : State} (h : s'.levels = s.levels) (v : Vector F64 8) :
    DiffersInLevels s v s' (setLevels v s') := ⟨rfl, .inr ⟨rfl, h⟩, rfl⟩

/-- Taking the input and setting the levels do not get in each other's way. -/
theorem takeInput_setLevels (v : Vector F64 8) (s : State) : takeInput (setLevels v s) = setLevels v (takeInput s) := rfl

/-- A step from other levels completes too, and differs in levels only. -/
theorem exists_step_setLevels {s s' : State} (v : Vector F64 8) (h : step s = .next s') :
    ∃ t', step (setLevels v s) = .next t' ∧ DiffersInLevels s v s' t' := by
  obtain ⟨w, hi, ⟨i, hd, rfl⟩ | ⟨e, hd, rfl⟩⟩ | ⟨hi, ⟨hs, hc⟩ | ⟨hs, ht, rfl⟩ | ⟨hs, ht, rfl⟩⟩ | ⟨hi, rfl⟩ := step_next h
  · obtain ⟨hrest, hcode⟩ := afterCommand_setLevels i v (takeInput s)
    refine ⟨afterCommand i (setLevels v (takeInput s)), ?_, ?_, ?_, hcode⟩
    · rw [step_of_command (s := setLevels v s) hi hd, exec_eq, takeInput_setLevels]
    · rw [afterCommand_levels, hrest]
    · exact .inr ⟨by simp, by simp⟩
  · exact ⟨_, step_of_illegal_command (s := setLevels v s) hi hd, rfl, .inr ⟨rfl, rfl⟩, rfl⟩
  · have hctl : step (setLevels v s) = cycle machineNum (setLevels v (takeInput s)) :=
      (step_of_controller (s := setLevels v s) hi).trans (controllerTurn_of_head hs)
    rw [hctl]
    obtain hc' | ⟨hl, hc'⟩ := cycle_setLevels v hc
    · exact ⟨s', hc', .refl s v s'⟩
    · exact ⟨_, hc', .setLevels (s := s) hl v⟩
  · exact ⟨_, (step_of_controller (s := setLevels v s) hi).trans (controllerTurn_of_tick hs ht),
      .setLevels (s := s) (s' := tbegin (takeInput s)) rfl v⟩
  · exact ⟨_, (step_of_controller (s := setLevels v s) hi).trans (controllerTurn_of_quiescent (quiescent_iff.2 ⟨hs, ht⟩)),
      .setLevels (s := s) (s' := takeInput s) rfl v⟩
  · exact ⟨_, step_of_reset (s := setLevels v s) hi, .refl s v _⟩

/-! ## An oscillator at frequency 0 (R112, R119) -/

section

variable {R : Type} {N : Num R} {p : Params} {f : Word}

theorem advanceBoth_lo_inactive {ph q : Phases R} (h : advanceBoth N 0 f ph = some q) : q.lo = ph.lo := by
  obtain ⟨hlo, -⟩ := (advanceBoth_eq_some N).1 h
  exact advance_eq_some_iff.1 hlo

theorem advanceBoth_hi_inactive {ph q : Phases R} (h : advanceBoth N f 0 ph = some q) : q.hi = ph.hi := by
  obtain ⟨-, hhi⟩ := (advanceBoth_eq_some N).1 h
  exact advance_eq_some_iff.1 hhi

/-- What each sample's advance keeps, a `RENDER` of any count keeps. -/
theorem render_keeps {α : Type} {fLo fHi : Word} (g : Phases R → α)
    (hg : ∀ ph q, advanceBoth N fLo fHi ph = some q → g q = g ph) {n : Nat} {ph q : Phases R} {xs : List Sample}
    (h : render N p fLo fHi n ph = some (xs, q)) : g q = g ph := by
  induction n generalizing ph xs with
  | zero =>
    rw [render_zero, Option.some.injEq, Prod.mk.injEq] at h
    rw [h.2]
  | succ n ih =>
    obtain ⟨ph', ys, ha, hr, -⟩ := (render_succ_eq_some N).1 h
    rw [ih hr, hg ph ph' ha]

/-- The sum of two terms of 0 is 0, with either overflow rule. -/
theorem trunc16_sampleSum_inactive (ph : Phases R) : trunc16 p.ovf (sampleSum N p.volume 0 0 ph) = 0 := by
  rw [sampleSum, term_zero, term_zero]
  cases p.ovf <;> rfl

theorem render_inactive (n : Nat) (ph : Phases R) : render N p 0 0 n ph = some (List.replicate n 0, ph) := by
  induction n with
  | zero => rfl
  | succ n ih =>
    have ha : advanceBoth N 0 0 ph = some ph := (advanceBoth_eq_some N).2 ⟨rfl, rfl⟩
    exact (render_succ_eq_some N).2 ⟨ph, _, ha, ih, by rw [trunc16_sampleSum_inactive, List.replicate_succ]⟩

end

/-! ## Truncation (R115) -/

theorem bmod_eq_self {t : Int} (h1 : -32768 ≤ t) (h2 : t ≤ 32767) : t.bmod (2 ^ 16) = t :=
  Int.bmod_eq_of_le (by norm_num; omega) (by norm_num; omega)

theorem trunc16_wrap_toInt (t : Int) : (trunc16 .wrap t).toInt = t.bmod (2 ^ 16) := BitVec.toInt_ofInt t

theorem trunc16_sat_toInt (t : Int) : (trunc16 .sat t).toInt = max (-32768) (min 32767 t) := by
  rw [trunc16, sat16, BitVec.toInt_ofInt, bmod_eq_self (by omega) (by omega)]

/-- Inside the range of a sample neither overflow rule acts. -/
theorem trunc16_toInt_of_range (o : Ovf) {t : Int} (h1 : -32768 ≤ t) (h2 : t ≤ 32767) : (trunc16 o t).toInt = t := by
  cases o with
  | wrap => rw [trunc16_wrap_toInt, bmod_eq_self h1 h2]
  | sat => rw [trunc16_sat_toInt]; omega

/-- Under NUM-RANGE a term is no larger than the volume, active or not. -/
theorem term_range {R : Type} {N : Num R} (hN : NumRange N) {V : Nat} (hV : V ≤ 32767) (f : Word) {ph : R}
    (hph : N.inTurn ph = true) : -(V : Int) ≤ term N V f ph ∧ term N V f ph ≤ V := by
  by_cases hf : f = 0
  · rw [hf, term_zero]
    omega
  · rw [term_active N hf]
    exact hN ph V hph hV

/-! ## The empty block (R93) -/

/-- A cycle that renders nothing, which only the illegal threshold 0 allows, has an empty block to detect. -/
theorem cycle_of_empty_block {R : Type} {N : Num R} {s : State R} (h : Renders s 0) (hw : nextWr s.sink = .ok) :
    cycle N s = .refused .emptyBlock := by
  rw [cycle_of_rendered_some (N := N) h (render_zero _)]
  simp [writeAndDetect, sinkWrite, hw, detectAll]

/-! ## The statements -/

/-- Settles O3: both say that the word is the command's own. -/
theorem decodeAndEncodeAgree : Obligations.DecodeAndEncodeAgree := fun _ _ _ =>
  decode_eq_ok_iff.trans eq_comm

/-- Settles O28: in the controller by `cycle_levels`; commands and `TBEGIN` keep the vector, reset zeroes it. -/
theorem levelsAreWrittenAsAWhole : Obligations.LevelsAreWrittenAsAWhole := by
  intro s s' h
  obtain ⟨w, hi, ⟨i, hd, rfl⟩ | ⟨e, -, rfl⟩⟩ | ⟨hi, ⟨hs, hc⟩ | ⟨-, -, rfl⟩ | ⟨-, -, rfl⟩⟩ | ⟨hi, rfl⟩ := step_next h
  case inl.inl => exact .inl (by simp)
  case inr.inl.inl => exact (cycle_levels hc).imp_right (Or.imp_right fun hbuf => ⟨hi, hbuf⟩)
  case inr.inr => exact .inr (.inl rfl)
  all_goals exact .inl rfl

/-- Settles O31: in the controller by `cycle_sinkErr`, among the commands by `sinkErr_writer_of_ne`. -/
theorem sinkErrIsStickyUntilPlayingIsTurnedOn : Obligations.SinkErrIsStickyUntilPlayingIsTurnedOn := by
  intro s s' h hne
  obtain ⟨w, hi, ⟨i, hd, rfl⟩ | ⟨e, -, rfl⟩⟩ | ⟨hi, ⟨hs, hc⟩ | ⟨-, -, rfl⟩ | ⟨-, -, rfl⟩⟩ | ⟨hi, rfl⟩ := step_next h
  case inl.inl =>
    obtain ⟨hf, hw⟩ := sinkErr_writer_of_ne hne
    refine .inr ⟨hf, .inl ⟨w, hi, ?_⟩⟩
    obtain rfl | ⟨rfl, hp⟩ := hw
    · exact .inl hd
    · exact .inr ⟨hd, hp⟩
  case inr.inl.inl =>
    obtain hkeep | ⟨he, hq, hfail⟩ := cycle_sinkErr hc
    · exact absurd hkeep hne
    · exact .inl ⟨he, hi, hs, hq, hfail⟩
  case inr.inr => exact .inr ⟨rfl, .inr hi⟩
  all_goals exact absurd rfl hne

/-- Settles O33: no other step writes the sink, and `CYCLE` by `cycle_stream`. -/
theorem streamGrowsByWholeRenderedChunks : Obligations.StreamGrowsByWholeRenderedChunks := by
  intro s s' h hne
  obtain ⟨w, hi, ⟨i, hd, rfl⟩ | ⟨e, -, rfl⟩⟩ | ⟨hi, ⟨hs, hc⟩ | ⟨-, -, rfl⟩ | ⟨-, -, rfl⟩⟩ | ⟨hi, rfl⟩ := step_next h
  case inl.inl => simp at hne
  case inr.inl.inl =>
    obtain hkeep | ⟨hw, n, buf, ph, ⟨-, -, hcap, hn⟩, hr, hst⟩ := cycle_stream hc
    · exact absurd hkeep hne
    · exact ⟨hi, hw, n, buf, ph, hcap, hn, render_length _ hr, hr, hst⟩
  all_goals exact absurd rfl hne

/-- Settles O34: no update that a step is made of writes the parameters. -/
theorem noStepChangesAParameter : Obligations.NoStepChangesAParameter := by
  intro s s' h
  obtain ⟨w, hi, ⟨i, hd, rfl⟩ | ⟨e, -, rfl⟩⟩ | ⟨hi, ⟨hs, hc⟩ | ⟨-, -, rfl⟩ | ⟨-, -, rfl⟩⟩ | ⟨hi, rfl⟩ := step_next h
  case inl.inl => simp
  case inr.inl.inl => rw [cycle_params hc, takeInput_params]
  all_goals rfl

/-- Settles O35, by `exists_step_setLevels`. -/
theorem levelsInfluenceNothingElse : Obligations.LevelsInfluenceNothingElse := by
  intro s s' v h
  obtain ⟨t', ht, hrest, hlevels, hcode⟩ := exists_step_setLevels v h
  exact ⟨t', ht, hrest, hlevels, hcode⟩

/-- Settles O43: one sample keeps an inactive phase, so a `RENDER` does. -/
theorem inactiveOscillatorsDoNotAdvance : Obligations.InactiveOscillatorsDoNotAdvance := fun _ _ _ n ph =>
  ⟨fun _ _ _ h => render_keeps Phases.lo (fun _ _ => advanceBoth_lo_inactive) h,
    fun _ _ _ h => render_keeps Phases.hi (fun _ _ => advanceBoth_hi_inactive) h, render_inactive n ph⟩

/-- Settles O47: two terms of at most 16383 stay inside the range of a sample. -/
theorem noOverflowUpToHalfVolume : Obligations.NoOverflowUpToHalfVolume := by
  intro R N V o fLo fHi ph hN hV hlo hhi
  obtain ⟨hlo1, hlo2⟩ := term_range hN (show V ≤ 32767 by omega) fLo hlo
  obtain ⟨hhi1, hhi2⟩ := term_range hN (show V ≤ 32767 by omega) fHi hhi
  have hsum : sampleSum N V fLo fHi ph = term N V fLo ph.lo + term N V fHi ph.hi := rfl
  rw [hsum]
  exact ⟨trunc16_toInt_of_range o (by omega) (by omega), by omega, by omega⟩

/-- Settles O4: the ten words, decoded. -/
theorem writtenOutWordsDecode : Obligations.WrittenOutWordsDecode :=
  ⟨rfl, rfl, rfl, rfl, rfl, rfl, rfl, rfl, rfl, rfl⟩

/-- Settles O5: `step_of_command`, with the input free, at the front of the script, or put there by `withFetchWord`. -/
theorem stepRunsTheDecodedCommand : Obligations.StepRunsTheDecodedCommand := by
  refine ⟨fun s w i hd => ⟨fun hi => step_of_command hi hd, fun rest hs => ?_, ?_⟩, fun R N s w i hd hi => ?_,
    fun s i => exec_eq_execIn i s, step_eq_stepIn⟩
  · rw [step_of_command (nextInput_of_cons hs) hd, takeInput_of_cons hs]
  · rw [step_of_command (nextInput_withFetchWord s w) hd, takeInput_withFetchWord]
  · simp only [stepIn, hi, takeTurn, takeCommand, hd]

/-- Settles O7: the script's head is taken where there is one, else the free value at the counter. -/
theorem takingAnInputLeavesTheRest : Obligations.TakingAnInputLeavesTheRest := by
  refine fun s => ⟨rfl, fun i rest h => ⟨nextInput_of_cons h, by rw [takeInput_of_cons h]⟩, fun h => ⟨?_, ?_⟩⟩
  · rw [nextInput, h]
  · simp only [takeInput_agents, inputDone, h]

/-- Settles O17: the sixteen codes, looked up. -/
theorem lookupGivesTheKeypadGrid : Obligations.LookupGivesTheKeypadGrid := ⟨by decide, by decide⟩

/-- Settles O20: the codes, evaluated. -/
theorem responseCodesAreTheCauseCodes : Obligations.ResponseCodesAreTheCauseCodes :=
  ⟨rfl, rfl, rfl, rfl, rfl, rfl, rfl⟩

/-- Settles O39: a capacity of 0 at the threshold 0 renders the empty block. -/
theorem emptyBlockIsRefused : Obligations.EmptyBlockIsRefused := by
  refine fun R N => ⟨fun _ _ => ⟨rfl, rfl⟩, fun s hp hf hc ht hw => ?_⟩
  exact cycle_of_empty_block ⟨hp, (bothInactive_eq_false s).2 hf, hc, by rw [ht]; exact Nat.zero_le _⟩ hw

/-- Settles O40: the entry is `raise` itself, which leaves `Idle`, so that `TOGGLE` acts as `PLAY`. -/
theorem sinkUnavailableEntryAndRecovery : Obligations.SinkUnavailableEntryAndRecovery := by
  refine ⟨fun _ N k => zeroLevels_getElem N k, fun _ _ _ => rfl, ?_⟩
  rintro s i (rfl | rfl)
  · rw [exec_eq]; rfl
  · rw [exec_eq, afterCommand_toggle_of_idle rfl]; rfl

/-- Settles O46: `ofInt` wraps, and a clamped sum is in range. -/
theorem truncationWrapsOrSaturates : Obligations.TruncationWrapsOrSaturates := fun t =>
  ⟨trunc16_wrap_toInt t, trunc16_sat_toInt t, fun h1 h2 => ⟨trunc16_toInt_of_range .wrap h1 h2, trunc16_toInt_of_range .sat h1 h2⟩⟩

end Sys2Proof.Machine

/-! PROOFS. Binary64 (00_scope.md, R9): the operations on finite operands as correctly rounded exact results, the conversions, the
order, and the number nearest 2π. -/

namespace Sys2Proof.Machine

/-! ## Kinds of patterns -/

section

variable {x : F64}

theorem F64.finite_iff : F64.finite x = true ↔ F64.mag x < 2047 * 2 ^ 52 := decide_eq_true_iff

theorem F64.isNaN_of_finite (h : F64.finite x = true) : F64.isNaN x = false :=
  decide_eq_false (F64.finite_iff.1 h).not_gt

theorem F64.isInf_of_finite (h : F64.finite x = true) : F64.isInf x = false :=
  beq_false_of_ne (F64.finite_iff.1 h).ne

theorem F64.isNaN_of_isInf (h : F64.isInf x = true) : F64.isNaN x = false := by
  rw [F64.isInf, beq_iff_eq] at h
  rw [F64.isNaN, h]
  decide

theorem F64.isZero_iff : F64.isZero x = true ↔ F64.toReal x = 0 := by
  have hm : F64.magReal (F64.mag x) = 0 ↔ F64.mag x = 0 := by
    rw [← F64.magReal_zero, F64.magReal_strictMono.injective.eq_iff]
  rw [F64.isZero, beq_iff_eq, ← hm, F64.toReal_eq_magReal]
  cases F64.neg x <;> simp

theorem F64.finite_of_isZero (h : F64.isZero x = true) : F64.finite x = true := by
  rw [F64.isZero, beq_iff_eq] at h
  rw [F64.finite_iff, h]
  norm_num

theorem F64.val_of_finite (h : F64.finite x = true) : F64.val x = some (F64.toReal x) := if_pos h

theorem F64.val_eq_zero_iff : F64.val x = some 0 ↔ F64.isZero x = true := by
  rw [F64.isZero_iff, F64.val]
  refine ⟨fun h => ?_, fun h => by rw [if_pos (F64.finite_of_isZero (F64.isZero_iff.2 h)), h]⟩
  split at h
  · exact Option.some.inj h
  · cases h

/-- A positive number has a clear sign bit. -/
theorem F64.neg_eq_false_of_pos (h : 0 < F64.toReal x) : F64.neg x = false := by
  rw [F64.toReal_eq_magReal] at h
  cases hn : F64.neg x with
  | false => rfl
  | true =>
    have := F64.magReal_nonneg (F64.mag x)
    rw [hn, if_pos rfl] at h
    linarith

end

/-! ## The operations on finite operands -/

section

variable {a b : F64} (ha : F64.finite a = true) (hb : F64.finite b = true)
include ha hb

theorem F64.add_of_finite : F64.add a b = F64.addFinite a b := by
  simp [F64.add, F64.isNaN_of_finite, F64.isInf_of_finite, ha, hb]

theorem F64.sub_of_finite : F64.sub a b = F64.addFinite a (F64.negate b) := by
  simp [F64.sub, F64.isNaN_of_finite, F64.isInf_of_finite, ha, hb]

theorem F64.mul_of_finite : F64.mul a b = F64.roundFrac (F64.neg a != F64.neg b)
    (F64.mant a * F64.mant b * 2 ^ (F64.expo a + F64.expo b).toNat) (2 ^ (-(F64.expo a + F64.expo b)).toNat) := by
  simp [F64.mul, F64.isNaN_of_finite, F64.isInf_of_finite, ha, hb]

theorem F64.div_of_finite (hz : F64.isZero b = false) : F64.div a b = F64.roundFrac (F64.neg a != F64.neg b)
    (F64.mant a * 2 ^ (F64.expo a - F64.expo b).toNat) (F64.mant b * 2 ^ (-(F64.expo a - F64.expo b)).toNat) := by
  simp [F64.div, F64.isNaN_of_finite, F64.isInf_of_finite, ha, hb, hz]

end

/-! ## Numbers that need no rounding -/

theorem F64.expo_le {x : F64} (h : F64.finite x = true) : F64.expo x ≤ 971 := by
  have hm := F64.finite_iff.1 h
  rw [F64.expo, F64.expField]
  omega

/-- A finite number is below the overflow limit. -/
theorem F64.abs_toReal_lt {x : F64} (h : F64.finite x = true) : |F64.toReal x| < (2 : ℝ) ^ 1024 - (2 : ℝ) ^ 970 := by
  have hm : (F64.mant x : ℝ) + 1 ≤ 2 ^ 53 := by exact_mod_cast F64.mant_lt x
  rw [F64.abs_toReal, F64.overflow_limit]
  have he : (2 : ℝ) ^ F64.expo x ≤ (2 : ℝ) ^ (971 : ℤ) := zpow_le_zpow_right₀ (by norm_num) (F64.expo_le h)
  exact mul_lt_mul (by linarith) he (by positivity) (by norm_num)

/-- A finite number is itself correctly rounded. -/
theorem F64.rounds_self {x : F64} (h : F64.finite x = true) : F64.Rounds (F64.toReal x) x := by
  rw [F64.Rounds, if_pos (F64.abs_toReal_lt h)]
  refine ⟨h, fun y _ => ?_⟩
  rw [sub_self, abs_zero]
  exact ⟨abs_nonneg _, fun he => .inl (sub_eq_zero.1 (abs_eq_zero.1 he.symm))⟩

/-- Where the exact result is a number of the format, rounding gives it. -/
theorem F64.rounds_exact {x : ℝ} {r y : F64} (h : F64.Rounds x r) (hy : F64.finite y = true) (hyx : F64.toReal y = x) :
    F64.finite r = true ∧ F64.toReal r = x := by
  rw [← hyx] at h ⊢
  rw [F64.Rounds, if_pos (F64.abs_toReal_lt hy)] at h
  obtain ⟨hf, hnear⟩ := h
  obtain ⟨h1, -⟩ := hnear y hy
  rw [sub_self, abs_zero] at h1
  exact ⟨hf, sub_eq_zero.1 (abs_nonpos_iff.1 h1)⟩

/-! ## Correct rounding of the exact result -/

/-- An integer with its sign taken apart, as `roundFrac` wants it. -/
theorem F64.sign_mul_natAbs (t : ℤ) : (if decide (t < 0) then (-1 : ℝ) else 1) * (t.natAbs : ℝ) = t := by
  rcases lt_or_ge t 0 with h | h
  · rw [if_pos (decide_eq_true h), Nat.cast_natAbs, abs_of_neg h]
    push_cast
    ring
  · rw [if_neg (by simpa using h), Nat.cast_natAbs, abs_of_nonneg h, one_mul]

/-- The sign of a product or a quotient is the exclusive or of the signs. -/
theorem F64.sign_bne (s t : Bool) : (if (s != t) then (-1 : ℝ) else 1) = (if s then -1 else 1) * (if t then -1 else 1) := by
  cases s <;> cases t <;> norm_num

theorem F64.addFinite_rounds (a b : F64) : F64.Rounds (F64.toReal a + F64.toReal b) (F64.addFinite a b) := by
  set e := min (F64.expo a) (F64.expo b) with he
  set t := F64.scaled a e + F64.scaled b e with ht
  have hsum : F64.toReal a + F64.toReal b = (t : ℝ) * (2 : ℝ) ^ e := by
    rw [ht, Int.cast_add, add_mul, F64.scaled_mul a (min_le_left _ _), F64.scaled_mul b (min_le_right _ _)]
  have hdef : F64.addFinite a b = if t = 0 then F64.ofBits (F64.neg a && F64.neg b) 0
      else F64.roundFrac (decide (t < 0)) (t.natAbs * 2 ^ e.toNat) (2 ^ (-e).toNat) := rfl
  rw [hsum, hdef]
  split
  case isTrue h =>
    rw [h, Int.cast_zero, zero_mul]
    exact F64.rounds_zero _
  case isFalse h =>
    have hr := F64.roundFrac_rounds (decide (t < 0)) (t.natAbs * 2 ^ e.toNat) (show 0 < 2 ^ (-e).toNat by positivity)
    rwa [F64.scale_nat, ← mul_assoc, F64.sign_mul_natAbs] at hr

section

variable {a b : F64} (ha : F64.finite a = true) (hb : F64.finite b = true)
include ha hb

theorem F64.add_rounds : F64.Rounds (F64.toReal a + F64.toReal b) (F64.add a b) := by
  rw [F64.add_of_finite ha hb]
  exact F64.addFinite_rounds a b

theorem F64.sub_rounds : F64.Rounds (F64.toReal a - F64.toReal b) (F64.sub a b) := by
  obtain ⟨hneg, -⟩ := F64.negate_spec b
  rw [F64.sub_of_finite ha hb, sub_eq_add_neg, ← hneg]
  exact F64.addFinite_rounds a _

theorem F64.mul_rounds : F64.Rounds (F64.toReal a * F64.toReal b) (F64.mul a b) := by
  rw [F64.mul_of_finite ha hb]
  set e := F64.expo a + F64.expo b with he
  have hr := F64.roundFrac_rounds (F64.neg a != F64.neg b) (F64.mant a * F64.mant b * 2 ^ e.toNat)
    (show 0 < 2 ^ (-e).toNat by positivity)
  rw [F64.scale_nat, F64.sign_bne, he, zpow_add₀ (by norm_num)] at hr
  convert hr using 1
  rw [F64.toReal, F64.toReal]
  push_cast
  ring

theorem F64.div_rounds (h0 : F64.toReal b ≠ 0) : F64.Rounds (F64.toReal a / F64.toReal b) (F64.div a b) := by
  have hz : F64.isZero b = false := by
    rw [← Bool.not_eq_true, F64.isZero_iff]
    exact h0
  have hmb : F64.mant b ≠ 0 := by
    intro h
    rw [F64.toReal, h, Nat.cast_zero, mul_zero, zero_mul] at h0
    exact h0 rfl
  rw [F64.div_of_finite ha hb hz]
  set e := F64.expo a - F64.expo b with he
  have hr := F64.roundFrac_rounds (F64.neg a != F64.neg b) (F64.mant a * 2 ^ e.toNat)
    (show 0 < F64.mant b * 2 ^ (-e).toNat by positivity)
  rw [F64.scale_frac_up, F64.sign_bne, he, zpow_sub₀ (by norm_num)] at hr
  convert hr using 1
  have hinv : (if F64.neg b then (-1 : ℝ) else 1)⁻¹ = if F64.neg b then -1 else 1 := by
    cases F64.neg b <;> norm_num
  rw [F64.toReal, F64.toReal, div_eq_mul_inv, mul_inv, mul_inv, hinv]
  ring

end

/-! ## The square root -/

theorem F64.mant_pos {x : F64} (h : F64.toReal x ≠ 0) : 0 < F64.mant x := by
  rw [Nat.pos_iff_ne_zero]
  intro hm
  rw [F64.toReal, hm, Nat.cast_zero, mul_zero, zero_mul] at h
  exact h rfl

theorem F64.toReal_of_neg_false {x : F64} (h : F64.neg x = false) : F64.toReal x = (F64.mant x : ℝ) * (2 : ℝ) ^ F64.expo x := by
  rw [F64.toReal, h]
  simp

/-- `sqrtPos` widens the significand to 105 or 106 bits by a shift `k` that leaves an even exponent `2·e`. -/
theorem F64.sqrt_scale {m : Nat} (h0 : 0 < m) (hm : m < 2 ^ 53) (E : ℤ) :
    let k0 := 104 - Nat.log2 m
    let k := k0 + ((E - k0) % 2).toNat
    2 ^ 104 ≤ m * 2 ^ k ∧ m * 2 ^ k < 2 ^ 106 ∧ E - k = 2 * ((E - k) / 2) ∧ 52 ≤ k ∧ k ≤ 105 := by
  intro k0 k
  set l := Nat.log2 m with hl
  have hl1 : 2 ^ l ≤ m := Nat.log2_self_le h0.ne'
  have hl2 : m < 2 ^ (l + 1) := Nat.lt_log2_self
  have hl3 : l < 53 := (Nat.log2_lt h0.ne').2 hm
  have hk : k = k0 ∨ k = k0 + 1 := by omega
  have hk0 : k0 + l = 104 := by omega
  refine ⟨?_, ?_, by omega, by omega, by omega⟩
  · calc 2 ^ 104 = 2 ^ l * 2 ^ k0 := by rw [← pow_add]; congr 1; omega
      _ ≤ m * 2 ^ k := Nat.mul_le_mul hl1 (Nat.pow_le_pow_right (by norm_num) (by omega))
  · calc m * 2 ^ k < 2 ^ (l + 1) * 2 ^ k := Nat.mul_lt_mul_of_pos_right hl2 (by positivity)
      _ ≤ 2 ^ 106 := by rw [← pow_add]; exact Nat.pow_le_pow_right (by norm_num) (by omega)

/-- The root of `m·2^E` on the scale `2^e` is the root of the widened significand `m·2^k`, with `2·e = E − k`. -/
theorem F64.sqrt_on_scale (m k : Nat) {E e : ℤ} (h : E - k = 2 * e) :
    Real.sqrt ((m : ℝ) * (2 : ℝ) ^ E) * (2 : ℝ) ^ (-e) = Real.sqrt ((m * 2 ^ k : ℕ) : ℝ) := by
  have hsq : (m : ℝ) * (2 : ℝ) ^ E = ((m * 2 ^ k : ℕ) : ℝ) * ((2 : ℝ) ^ e) ^ 2 := by
    rw [show E = k + (e + e) by omega, zpow_add₀ (by norm_num), zpow_add₀ (by norm_num), zpow_natCast]
    push_cast
    ring
  rw [hsq, Real.sqrt_mul (by positivity), Real.sqrt_sq (by positivity), mul_assoc, ← zpow_add₀ (by norm_num)]
  simp

/-- A root lies between powers of two where its square does. -/
theorem F64.sqrt_mem_binade {n : Nat} (h1 : 2 ^ 104 ≤ n) (h2 : n < 2 ^ 106) :
    (2 : ℝ) ^ 52 ≤ Real.sqrt n ∧ Real.sqrt n < 2 ^ 53 := by
  have h1' : ((2 : ℝ) ^ 52) ^ 2 ≤ n := by rw [← pow_mul]; exact_mod_cast h1
  have h2' : (n : ℝ) < ((2 : ℝ) ^ 53) ^ 2 := by rw [← pow_mul]; exact_mod_cast h2
  exact ⟨Real.le_sqrt_of_sq_le h1', (Real.sqrt_lt' (by positivity)).2 h2'⟩

/-- `sqrtPos` writes a finite pattern with a clear sign bit, and it is the root correctly rounded. -/
theorem F64.sqrtPos_spec {x : F64} (hf : F64.finite x = true) (hx : 0 < F64.toReal x) :
    F64.Rounds (Real.sqrt (F64.toReal x)) (F64.sqrtPos x) ∧ F64.neg (F64.sqrtPos x) = false := by
  obtain ⟨hn1, hn2, heven, hk1, hk2⟩ := F64.sqrt_scale (F64.mant_pos hx.ne') (F64.mant_lt x) (F64.expo x)
  set k := 104 - Nat.log2 (F64.mant x) + ((F64.expo x - (104 - Nat.log2 (F64.mant x) : ℕ)) % 2).toNat
  set e := (F64.expo x - k) / 2
  set n := F64.mant x * 2 ^ k
  set r := F64.isqrt n 53 0
  set m := if r * r + r < n then r + 1 else r with hm
  have hdef : F64.sqrtPos x = F64.ofBits false ((e + 1074).toNat * 2 ^ 52 + m) := rfl
  obtain ⟨hr1, hr2, -⟩ := F64.isqrt_spec n 53 0 (by omega) (by omega)
  have hr3 : r < 2 ^ 53 := by simpa using F64.isqrt_lt n 53 0
  have hElo := F64.expo_ge x
  have hEhi := F64.expo_le hf
  have hmle : m ≤ 2 ^ 53 := by rw [hm]; split <;> omega
  have hb : (e + 1074).toNat * 2 ^ 52 + m < 2047 * 2 ^ 52 := by omega
  have hscale := F64.sqrt_on_scale (F64.mant x) k heven
  have hnear := F64.near_sqrt hr1 hr2 hm
  obtain ⟨hlow, hup⟩ := F64.sqrt_mem_binade hn1 hn2
  rw [← hscale, ← F64.toReal_of_neg_false (F64.neg_eq_false_of_pos hx)] at hnear hlow hup
  have hround := F64.rounds_on_scale false (Real.sqrt_pos.2 hx) (e := e) (by omega) hup (.inr hlow) hnear.le
    (fun h => absurd h hnear.ne)
  rw [if_pos hb] at hround
  rw [hdef]
  exact ⟨by simpa using hround, F64.neg_ofBits false (by omega)⟩

theorem F64.sqrt_rounds {x : F64} (hf : F64.finite x = true) (hx : 0 ≤ F64.toReal x) :
    F64.Rounds (Real.sqrt (F64.toReal x)) (F64.sqrt x) := by
  rcases hx.eq_or_lt with h0 | hpos
  · have hs : F64.sqrt x = x := by
      simp [F64.sqrt, F64.isNaN_of_finite hf, F64.isZero_iff.2 h0.symm]
    rw [hs, ← h0, Real.sqrt_zero, h0]
    exact F64.rounds_self hf
  · have hz : F64.isZero x = false := by
      rw [← Bool.not_eq_true, F64.isZero_iff]
      exact hpos.ne'
    have hs : F64.sqrt x = F64.sqrtPos x := by
      simp [F64.sqrt, F64.isNaN_of_finite hf, F64.isInf_of_finite hf, hz, F64.neg_eq_false_of_pos hpos]
    rw [hs]
    exact (F64.sqrtPos_spec hf hpos).1

/-! ## Conversions and order -/

theorem F64.ofInt_rounds (n : ℤ) : F64.Rounds n (F64.ofInt n) := by
  have hr := F64.roundFrac_rounds (decide (n < 0)) n.natAbs Nat.one_pos
  rwa [Nat.cast_one, div_one, F64.sign_mul_natAbs] at hr

/-- Integers below `2^53` in size are numbers of the format. -/
theorem F64.exists_int {n : ℤ} (hn : n.natAbs < 2 ^ 53) : ∃ y : F64, F64.finite y = true ∧ F64.toReal y = n := by
  obtain ⟨y, hy, hval⟩ := F64.exists_nat n.natAbs hn
  rcases Int.natAbs_eq n with h | h
  · exact ⟨y, hy, by rw [hval, h]; simp⟩
  · obtain ⟨hneg, hfin⟩ := F64.negate_spec y
    exact ⟨F64.negate y, hfin.trans hy, by rw [hneg, hval, h]; simp⟩

theorem F64.ofInt_exact {n : ℤ} (hn : n.natAbs < 2 ^ 53) : F64.finite (F64.ofInt n) = true ∧ F64.toReal (F64.ofInt n) = n := by
  obtain ⟨y, hy, hval⟩ := F64.exists_int hn
  exact F64.rounds_exact (F64.ofInt_rounds n) hy hval

/-- The real number at a place of the order. -/
noncomputable def F64.keyReal (k : ℤ) : ℝ := if 0 ≤ k then F64.magReal k.toNat else -F64.magReal (-k).toNat

theorem F64.toReal_eq_keyReal (x : F64) : F64.toReal x = F64.keyReal (F64.key x) := F64.toReal_eq_key x

theorem F64.keyReal_strictMono : StrictMono F64.keyReal := by
  intro j k hjk
  have hmono := F64.magReal_strictMono
  rw [F64.keyReal, F64.keyReal]
  split <;> split
  · exact hmono (by omega)
  · omega
  · have hj : F64.magReal 0 < F64.magReal (-j).toNat := hmono (by omega)
    have hk := F64.magReal_nonneg k.toNat
    rw [F64.magReal_zero] at hj
    linarith
  · exact neg_lt_neg (hmono (by omega))

/-- The comparison of two numbers that are none of them NaN is the one of their places. -/
theorem F64.lt_iff_key {a b : F64} (ha : F64.isNaN a = false) (hb : F64.isNaN b = false) :
    F64.lt a b = true ↔ F64.key a < F64.key b := by
  simp [F64.lt, ha, hb]

theorem F64.lt_iff {a b : F64} (ha : F64.finite a = true) (hb : F64.finite b = true) :
    F64.lt a b = true ↔ F64.toReal a < F64.toReal b := by
  rw [F64.lt_iff_key (F64.isNaN_of_finite ha) (F64.isNaN_of_finite hb), F64.toReal_eq_keyReal, F64.toReal_eq_keyReal,
    F64.keyReal_strictMono.lt_iff_lt]

theorem F64.lt_of_isNaN {a b : F64} (h : F64.isNaN a = true ∨ F64.isNaN b = true) : F64.lt a b = false := by
  rcases h with h | h <;> simp [F64.lt, h]

theorem F64.isNaN_of_lt {a b : F64} (h : F64.lt a b = true) : F64.isNaN a = false := by
  rw [← Bool.not_eq_true]
  intro hn
  rw [F64.lt_of_isNaN (.inl hn)] at h
  cases h

/-- A natural fraction `n/2^k` is rounded to nearest, ties up, by adding one half and dividing. -/
theorem floor_add_half (n k : ℕ) : ⌊(n : ℝ) / (2 ^ k : ℕ) + 1 / 2⌋ = ((2 * n + 2 ^ k) / 2 ^ (k + 1) : ℕ) := by
  have h : (n : ℝ) / (2 ^ k : ℕ) + 1 / 2 = ((2 * n + 2 ^ k : ℕ) : ℝ) / ((2 ^ (k + 1) : ℕ) : ℝ) := by
    push_cast
    rw [pow_succ]
    field_simp
  rw [h, ← Int.natCast_floor_eq_floor (by positivity), Nat.floor_div_eq_div]

/-- Ties away from zero: rounding is odd. -/
theorem idealRound_neg {x : ℝ} (hx : 0 ≤ x) : idealRound (-x) = -idealRound x := by
  rcases hx.eq_or_lt with rfl | hpos
  · norm_num [idealRound]
  · rw [idealRound, idealRound, if_neg (by linarith), if_pos hx, neg_neg]

theorem F64.round_eq {x : F64} (h : F64.finite x = true) : F64.round x = idealRound (F64.toReal x) := by
  set k := (-F64.expo x).toNat with hk
  set n := F64.mant x * 2 ^ (F64.expo x).toNat with hn
  have hdef : F64.round x = if F64.neg x then -(((2 * n + 2 ^ k) / 2 ^ (k + 1) : ℕ) : ℤ)
      else ((2 * n + 2 ^ k) / 2 ^ (k + 1) : ℕ) := if_pos h
  have habs : (F64.mant x : ℝ) * (2 : ℝ) ^ F64.expo x = (n : ℝ) / (2 ^ k : ℕ) := (F64.scale_nat _ _).symm
  have hround : idealRound ((n : ℝ) / (2 ^ k : ℕ)) = ((2 * n + 2 ^ k) / 2 ^ (k + 1) : ℕ) := by
    rw [idealRound, if_pos (by positivity), floor_add_half]
  rw [hdef, F64.toReal, mul_assoc, habs, ← hround]
  cases F64.neg x with
  | false => simp
  | true => rw [if_pos rfl, if_pos rfl, neg_one_mul, idealRound_neg (by positivity)]

/-! ## The number nearest 2π -/

/-- `twoPi` is `m·2^−50` with this significand `m`. -/
theorem F64.twoPi_eq : F64.twoPi = F64.ofBits false (1024 * 2 ^ 52 + 7074237752028440) := by decide

theorem F64.toReal_twoPi : F64.toReal F64.twoPi = 7074237752028440 * (2 : ℝ) ^ (-50 : ℤ) := by
  rw [F64.twoPi_eq, F64.toReal_ofBits false (by norm_num) (by norm_num) (by norm_num)]
  norm_num

theorem F64.finite_twoPi : F64.finite F64.twoPi = true := by decide

/-- Twenty decimals of π put 2π well within half a unit of the significand. -/
theorem F64.twoPi_rounds : F64.Rounds (2 * Real.pi) F64.twoPi := by
  have hlo := Real.pi_gt_d20
  have hhi := Real.pi_lt_d20
  have h50 : (2 : ℝ) ^ (-(-50) : ℤ) = 2 ^ 50 := by rw [neg_neg]; norm_cast
  have hnear : |((7074237752028440 : ℕ) : ℝ) - 2 * Real.pi * (2 : ℝ) ^ (-(-50) : ℤ)| < 1 / 2 := by
    rw [h50, abs_lt]
    constructor <;> norm_num <;> linarith
  have hr := F64.rounds_on_scale false (X := 2 * Real.pi) (by positivity) (e := -50) (by norm_num)
    (by rw [h50]; norm_num; linarith) (.inr (by rw [h50]; norm_num; linarith)) hnear.le (fun h => absurd h hnear.ne)
  have hE : (-50 + 1074 : ℤ).toNat = 1024 := rfl
  rw [if_neg Bool.false_ne_true, one_mul, hE, if_pos (by norm_num)] at hr
  rw [F64.twoPi_eq]
  exact hr

/-! ## The statements -/

/-- Settles O54: each operation on finite operands rounds a fraction, or a root, that is the exact result. -/
theorem binarySixtyFourIsCorrectlyRounded : Obligations.BinarySixtyFourIsCorrectlyRounded := fun _ _ ha hb =>
  ⟨F64.add_rounds ha hb, F64.sub_rounds ha hb, F64.mul_rounds ha hb, F64.div_rounds ha hb, F64.sqrt_rounds ha⟩

/-- Settles O55: integers below `2^53` need no rounding, the order is that of the places, and `round` adds one half. -/
theorem binarySixtyFourConversionsAndOrder : Obligations.BinarySixtyFourConversionsAndOrder := by
  refine ⟨fun n hn => ?_, fun _ _ => F64.lt_iff, fun _ _ => F64.lt_of_isNaN, fun _ => F64.round_eq, rfl, F64.twoPi_rounds⟩
  obtain ⟨hf, hval⟩ := F64.ofInt_exact hn
  rw [F64.val_of_finite hf, hval]

end Sys2Proof.Machine

/-! PROOFS. `RENDER` in binary64 always completes: what a pass of `wrap` takes away, and how far the phases can be from 2π
(42_generator.md). -/

namespace Sys2Proof.Machine

/-! ## Which real numbers are patterns -/

/-- Every significand below `2^53` at every exponent of the format is some pattern. -/
theorem F64.exists_pattern (j : Nat) (hj : j ≤ 2045) : ∀ {m : Nat}, m < 2 ^ 53 →
    ∃ y : F64, F64.finite y = true ∧ F64.toReal y = (m : ℝ) * (2 : ℝ) ^ ((j : ℤ) - 1074) := by
  induction j with
  | zero =>
    intro m hm
    have hb : 0 * 2 ^ 52 + m < 2047 * 2 ^ 52 := by omega
    exact ⟨_, F64.finite_ofBits false hb, by simpa using F64.toReal_ofBits false hm.le (.inl rfl) hb⟩
  | succ j ih =>
    intro m hm
    rcases Nat.lt_or_ge m (2 ^ 52) with hsmall | hlarge
    · obtain ⟨y, hy, hval⟩ := ih (by omega) (show 2 * m < 2 ^ 53 by omega)
      refine ⟨y, hy, ?_⟩
      rw [hval, show ((j + 1 : ℕ) : ℤ) - 1074 = ((j : ℤ) - 1074) + 1 by push_cast; ring, zpow_add₀ (by norm_num)]
      push_cast
      ring
    · have hb : (j + 1) * 2 ^ 52 + m < 2047 * 2 ^ 52 := by omega
      exact ⟨_, F64.finite_ofBits false hb, by simpa using F64.toReal_ofBits false hm.le (.inr hlarge) hb⟩

section

variable {x : F64}

/-- Only the lowest exponent has significands below `2^52`. -/
theorem F64.le_mant (h : -1074 < F64.expo x) : 2 ^ 52 ≤ F64.mant x := by
  rw [F64.expo] at h
  rw [F64.mant, if_neg (by omega)]
  omega

theorem F64.expo_nonpos_of_lt (h : |F64.toReal x| < 2 ^ 53) : F64.expo x ≤ 0 := by
  by_contra hc
  have hm : (2 : ℝ) ^ 52 ≤ F64.mant x := by exact_mod_cast F64.le_mant (x := x) (by omega)
  have he : (2 : ℝ) ^ (1 : ℤ) ≤ (2 : ℝ) ^ F64.expo x := zpow_le_zpow_right₀ (by norm_num) (by omega)
  have hprod : (2 : ℝ) ^ 52 * (2 : ℝ) ^ (1 : ℤ) ≤ |F64.toReal x| := by
    rw [F64.abs_toReal]
    exact mul_le_mul hm he (by positivity) (by positivity)
  norm_num at hprod h
  linarith

theorem F64.expo_nonneg_of_le (h : 2 ^ 52 ≤ |F64.toReal x|) : 0 ≤ F64.expo x := by
  by_contra hc
  have hm : (F64.mant x : ℝ) < 2 ^ 53 := by exact_mod_cast F64.mant_lt x
  have he : (2 : ℝ) ^ F64.expo x ≤ (2 : ℝ) ^ (-1 : ℤ) := zpow_le_zpow_right₀ (by norm_num) (by omega)
  have hprod : |F64.toReal x| < 2 ^ 53 * (2 : ℝ) ^ (-1 : ℤ) := by
    rw [F64.abs_toReal]
    exact mul_lt_mul hm he (by positivity) (by positivity)
  norm_num at hprod h
  linarith

/-- Numbers from `2^52` on are integers. -/
theorem F64.exists_int_eq (h : 2 ^ 52 ≤ F64.toReal x) : ∃ k : ℤ, F64.toReal x = k := by
  have hpos : 0 < F64.toReal x := lt_of_lt_of_le (by norm_num) h
  obtain ⟨j, hj⟩ := Int.eq_ofNat_of_zero_le (F64.expo_nonneg_of_le (h.trans (le_abs_self _)))
  refine ⟨F64.mant x * 2 ^ j, ?_⟩
  rw [F64.toReal_of_neg_false (F64.neg_eq_false_of_pos hpos), hj]
  push_cast
  rw [zpow_natCast]

/-- Below `2^53` a number less one is a number of the format. -/
theorem F64.exists_sub_one (h1 : 1 ≤ F64.toReal x) (h2 : F64.toReal x < 2 ^ 53) :
    ∃ y : F64, F64.finite y = true ∧ F64.toReal y = F64.toReal x - 1 := by
  have hpos : 0 < F64.toReal x := by linarith
  have hE := F64.expo_nonpos_of_lt (x := x) (by rwa [abs_of_pos hpos])
  have hElo := F64.expo_ge x
  obtain ⟨k, hk⟩ := Int.eq_ofNat_of_zero_le (show 0 ≤ -F64.expo x by omega)
  have hval : F64.toReal x = F64.mant x * (2 : ℝ) ^ (-(k : ℤ)) := by
    rw [F64.toReal_of_neg_false (F64.neg_eq_false_of_pos hpos), show F64.expo x = -(k : ℤ) by omega]
  have hpow : (2 : ℝ) ^ k * (2 : ℝ) ^ (-(k : ℤ)) = 1 := by rw [zpow_neg, zpow_natCast]; field_simp
  have hle : 2 ^ k ≤ F64.mant x := by
    have hreal : (2 : ℝ) ^ k * (2 : ℝ) ^ (-(k : ℤ)) ≤ F64.mant x * (2 : ℝ) ^ (-(k : ℤ)) := by rw [hpow, ← hval]; exact h1
    exact_mod_cast le_of_mul_le_mul_right hreal (by positivity)
  have hm := F64.mant_lt x
  obtain ⟨y, hy, hyval⟩ := F64.exists_pattern (1074 - k) (by omega) ((Nat.sub_le _ (2 ^ k)).trans_lt hm)
  refine ⟨y, hy, ?_⟩
  rw [hyval, show (((1074 - k : ℕ) : ℤ) - 1074) = -(k : ℤ) by omega, Nat.cast_sub hle, sub_mul, hval]
  push_cast
  rw [hpow]

/-- Where it is not zero, a real number has one pattern at most. -/
theorem F64.eq_of_toReal_eq {y : F64} (h : F64.toReal x = F64.toReal y) (h0 : F64.toReal y ≠ 0) : x = y := by
  have hkey : F64.key x = F64.key y := by
    rw [F64.toReal_eq_keyReal, F64.toReal_eq_keyReal] at h
    exact F64.keyReal_strictMono.injective h
  have hmag : F64.mag y ≠ 0 := by
    intro hz
    exact h0 (F64.isZero_iff.1 (by rw [F64.isZero, hz]; rfl))
  apply BitVec.eq_of_toNat_eq
  have hx := x.isLt
  have hy := y.isLt
  simp only [F64.key, F64.neg, F64.mag, decide_eq_true_eq] at hkey hmag
  split at hkey <;> split at hkey <;> omega

end

/-! ## A rounded result against other numbers of the format -/

/-- `r` is a finite number, and none is nearer to `x`: what `Rounds` says below the overflow limit, where `rounds_le` and `rounds_ge`
reach only to `2^1000`. -/
structure F64.Nearest (x : ℝ) (r : F64) : Prop where
  finite : F64.finite r = true
  near : ∀ y, F64.finite y = true → |F64.toReal r - x| ≤ |F64.toReal y - x|

section

variable {x : ℝ} {r y : F64}

/-- A result no larger than some number of the format does not overflow. -/
theorem F64.Rounds.nearest (h : F64.Rounds x r) (hy : F64.finite y = true) (hxy : |x| ≤ |F64.toReal y|) : F64.Nearest x r := by
  rw [F64.Rounds, if_pos (hxy.trans_lt (F64.abs_toReal_lt hy))] at h
  exact ⟨h.1, fun z hz => (h.2 z hz).1⟩

theorem F64.Nearest.le (h : F64.Nearest x r) (hy : F64.finite y = true) (hxy : x ≤ F64.toReal y) :
    F64.toReal r ≤ F64.toReal y := by
  have hnear := h.near y hy
  rw [abs_of_nonneg (sub_nonneg.2 hxy)] at hnear
  linarith [le_abs_self (F64.toReal r - x)]

theorem F64.Nearest.ge (h : F64.Nearest x r) (hy : F64.finite y = true) (hxy : F64.toReal y ≤ x) :
    F64.toReal y ≤ F64.toReal r := by
  have hnear := h.near y hy
  rw [abs_of_nonpos (sub_nonpos.2 hxy)] at hnear
  linarith [neg_abs_le (F64.toReal r - x)]

/-- A result between 0 and a natural number of the format stays between them. -/
theorem F64.Rounds.le_nat {n : Nat} (h : F64.Rounds x r) (h0 : 0 ≤ x) (hn : x ≤ n) (hn53 : n < 2 ^ 53) :
    F64.finite r = true ∧ 0 ≤ F64.toReal r ∧ F64.toReal r ≤ n := by
  obtain ⟨a, ha, haval⟩ := F64.exists_nat 0 (by norm_num)
  obtain ⟨b, hb, hbval⟩ := F64.exists_nat n hn53
  rw [Nat.cast_zero] at haval
  have hnear := h.nearest hb (by rwa [hbval, abs_of_nonneg h0, Nat.abs_cast])
  exact ⟨hnear.finite, haval ▸ hnear.ge ha (haval ▸ h0), hbval ▸ hnear.le hb (hbval ▸ hn)⟩

end

/-! ## One pass of the loop (R113) -/

theorem F64.twoPi_mem : 6 ≤ F64.toReal F64.twoPi ∧ F64.toReal F64.twoPi ≤ 7 := by
  rw [F64.toReal_twoPi]
  norm_num

section

variable {p : F64} (hf : F64.finite p = true) (hp : F64.toReal F64.twoPi ≤ F64.toReal p)
include hf hp

theorem F64.sub_twoPi_nearest : F64.Nearest (F64.toReal p - F64.toReal F64.twoPi) (F64.sub p F64.twoPi) := by
  obtain ⟨h6, -⟩ := F64.twoPi_mem
  refine (F64.sub_rounds hf F64.finite_twoPi).nearest hf ?_
  rw [abs_of_nonneg (by linarith), abs_of_nonneg (by linarith)]
  linarith

theorem F64.sub_twoPi_nonneg : 0 ≤ F64.toReal (F64.sub p F64.twoPi) := by
  obtain ⟨z, hz, hz0⟩ := F64.exists_nat 0 (by norm_num)
  rw [Nat.cast_zero] at hz0
  have hge := (F64.sub_twoPi_nearest hf hp).ge hz (by rw [hz0]; linarith)
  rwa [hz0] at hge

/-- Below `2^53` a pass takes away at least 1. -/
theorem F64.sub_twoPi_le_of_lt (hlt : F64.toReal p < 2 ^ 53) : F64.toReal (F64.sub p F64.twoPi) ≤ F64.toReal p - 1 := by
  obtain ⟨h6, -⟩ := F64.twoPi_mem
  obtain ⟨y, hy, hyval⟩ := F64.exists_sub_one (x := p) (by linarith) hlt
  have hle := (F64.sub_twoPi_nearest hf hp).le hy (by rw [hyval]; linarith)
  rwa [hyval] at hle

/-- A pass that changes the value at all takes away at least 1: from `2^53` on both values are integers. -/
theorem F64.sub_twoPi_le (hne : F64.sub p F64.twoPi ≠ p) : F64.toReal (F64.sub p F64.twoPi) ≤ F64.toReal p - 1 := by
  obtain ⟨h6, h7⟩ := F64.twoPi_mem
  rcases lt_or_ge (F64.toReal p) (2 ^ 53) with hlt | hge
  · exact F64.sub_twoPi_le_of_lt hf hp hlt
  · have hnear := F64.sub_twoPi_nearest hf hp
    have hle : F64.toReal (F64.sub p F64.twoPi) ≤ F64.toReal p := hnear.le hf (by linarith)
    obtain ⟨z, hz, hzval⟩ := F64.exists_nat (2 ^ 52) (by norm_num)
    rw [Nat.cast_pow, Nat.cast_ofNat] at hzval
    have hlow := hnear.ge hz (by rw [hzval]; norm_num at hge ⊢; linarith)
    rw [hzval] at hlow
    obtain ⟨j, hj⟩ := F64.exists_int_eq hlow
    obtain ⟨k, hk⟩ := F64.exists_int_eq (x := p) (by norm_num at hge ⊢; linarith)
    have hreal : F64.toReal (F64.sub p F64.twoPi) ≠ F64.toReal p := fun h => hne (F64.eq_of_toReal_eq h (by linarith))
    rw [hj, hk] at hle hreal ⊢
    have hjk : j < k := lt_of_le_of_ne (by exact_mod_cast hle) (by exact_mod_cast hreal)
    exact_mod_cast Int.le_sub_one_of_lt hjk

end

/-! ## The passes that are tried first (log 6) -/

/-- More passes than end the loop end it with the same value. -/
theorem wrapLoop_mono {R : Type} {N : Num R} {n m : Nat} {p q : R} (h : wrapLoop N n p = some q) (hnm : n ≤ m) :
    wrapLoop N m p = some q := by
  induction n generalizing m p with
  | zero =>
    have hlt : N.lt p N.twoPi = true := by
      cases hl : N.lt p N.twoPi with
      | true => rfl
      | false => simp [wrapLoop, Num.ge, hl] at h
    rwa [wrapLoop_below N hlt] at h ⊢
  | succ n ih =>
    cases hl : N.lt p N.twoPi with
    | true => rwa [wrapLoop_below N hl] at h ⊢
    | false =>
      obtain ⟨m, rfl⟩ := Nat.exists_eq_add_of_lt hnm
      rw [wrapLoop_above N hl] at h
      rw [wrapLoop_above N hl]
      exact ih h (by omega)

/-- One less is rounded to one less, and `round` is monotone there. -/
theorem idealRound_add_one_le {x y : ℝ} (hx : 0 ≤ x) (hxy : x ≤ y - 1) : idealRound x + 1 ≤ idealRound y := by
  rw [idealRound, idealRound, if_pos hx, if_pos (by linarith), ← Int.floor_add_one]
  exact Int.floor_le_floor (by linarith)

theorem idealRound_nonneg {x : ℝ} (hx : 0 ≤ x) : 0 ≤ idealRound x := by
  rw [idealRound, if_pos hx]
  exact Int.floor_nonneg.2 (by linarith)

section

variable {t : Trig} {p q : F64}

/-- From a NaN the loop of `wrap` never ends. -/
theorem F64.wrapLoop_of_isNaN (n : Nat) (h : F64.isNaN p = true) : wrapLoop (F64.num t) n p = none := by
  have hl : ∀ {x : F64}, F64.isNaN x = true → (F64.num t).lt x (F64.num t).twoPi = false := fun hx => F64.lt_of_isNaN (.inl hx)
  induction n generalizing p with
  | zero => simp [wrapLoop, Num.ge, hl h]
  | succ n ih =>
    rw [wrapLoop_above _ (hl h)]
    refine ih ?_
    change F64.isNaN (F64.sub p F64.twoPi) = true
    rw [F64.sub, h, Bool.true_or, if_pos rfl]
    exact F64.isNaN_nan 1 p _

/-- An infinity stays what it is. -/
theorem F64.sub_twoPi_of_isInf (h : F64.isInf p = true) : F64.sub p F64.twoPi = p := by
  simp [F64.sub, h, F64.isNaN_of_isInf h, F64.isInf_of_finite F64.finite_twoPi, F64.isNaN_of_finite F64.finite_twoPi]

theorem F64.kind (x : F64) : F64.isNaN x = true ∨ F64.isInf x = true ∨ F64.finite x = true := by
  rw [F64.isNaN, F64.isInf, F64.finite, decide_eq_true_iff, decide_eq_true_iff, beq_iff_eq]
  omega

/-- A loop of `wrap` that ends does so within the passes that are tried first: each of them takes one off `round`. -/
theorem F64.wrapLoop_wrapPasses {n : Nat} (h : wrapLoop (F64.num t) n p = some q) :
    wrapLoop (F64.num t) (wrapPasses (F64.num t) p) p = some q := by
  induction n generalizing p with
  | zero => exact wrapLoop_mono h (Nat.zero_le _)
  | succ n ih =>
    cases hl : (F64.num t).lt p (F64.num t).twoPi with
    | true => rwa [wrapLoop_below _ hl] at h ⊢
    | false =>
      rcases eq_or_ne (F64.sub p F64.twoPi) p with hstuck | hne
      · rw [wrapLoop_stuck _ hl hstuck] at h
        cases h
      · obtain hk | hk | hf := F64.kind p
        · rw [F64.wrapLoop_of_isNaN _ hk] at h
          cases h
        · exact absurd (F64.sub_twoPi_of_isInf hk) hne
        · have hp : F64.toReal F64.twoPi ≤ F64.toReal p := by
            rw [← not_lt, ← F64.lt_iff hf F64.finite_twoPi]
            exact Bool.eq_false_iff.1 hl
          have hr := (F64.sub_twoPi_nearest hf hp).finite
          have hround := idealRound_add_one_le (F64.sub_twoPi_nonneg hf hp) (F64.sub_twoPi_le hf hp hne)
          have hnonneg := idealRound_nonneg (F64.sub_twoPi_nonneg hf hp)
          rw [← F64.round_eq hf, ← F64.round_eq hr] at hround
          rw [← F64.round_eq hr] at hnonneg
          rw [wrapLoop_above _ hl] at h
          have hdown : wrapLoop (F64.num t) (F64.round p).toNat (F64.sub p F64.twoPi) = some q :=
            wrapLoop_mono (ih h) (show (F64.round (F64.sub p F64.twoPi)).toNat + 1 ≤ (F64.round p).toNat by omega)
          exact (wrapLoop_above _ hl _).trans hdown

/-! ## Phases in `[0, 2π)` (R22) -/

theorem F64.num_zero : (F64.num t).zero = 0 := machineNum_zero

theorem F64.toReal_zero : F64.toReal 0 = 0 := F64.isZero_iff.1 (by decide)

theorem F64.key_eq_mag {x : F64} (h : 0 ≤ F64.key x) : F64.key x = F64.mag x := by
  cases hs : F64.neg x <;> simp [F64.key, hs] at h ⊢
  omega

/-- The range of a phase, on the real numbers. -/
theorem F64.inTurn_iff : (F64.num t).inTurn p = true ↔
    F64.finite p = true ∧ 0 ≤ F64.toReal p ∧ F64.toReal p < F64.toReal F64.twoPi := by
  have hsplit : (F64.num t).inTurn p = true ↔ F64.lt p 0 = false ∧ F64.lt p F64.twoPi = true := by
    rw [Num.inTurn, F64.num_zero, Bool.and_eq_true, Num.ge, Bool.not_eq_true']
    rfl
  have h0 : F64.finite 0 = true := by decide
  rw [hsplit]
  constructor
  · rintro ⟨hge, hlt⟩
    have hnan := F64.isNaN_of_lt hlt
    have hkey0 : ¬F64.key p < F64.key 0 := by
      rw [← F64.lt_iff_key hnan (F64.isNaN_of_finite h0), hge]
      exact Bool.false_ne_true
    have hkey := (F64.lt_iff_key hnan (F64.isNaN_of_finite F64.finite_twoPi)).1 hlt
    have hf : F64.finite p = true := by
      have hz : F64.key 0 = 0 := by decide
      have h2 : F64.key F64.twoPi < 2047 * 2 ^ 52 := by decide
      have hmag := F64.key_eq_mag (x := p) (by omega)
      rw [F64.finite_iff]
      omega
    refine ⟨hf, ?_, (F64.lt_iff hf F64.finite_twoPi).1 hlt⟩
    rw [← not_lt, ← F64.toReal_zero, ← F64.lt_iff hf h0, hge]
    exact Bool.false_ne_true
  · rintro ⟨hf, hge, hlt⟩
    refine ⟨?_, (F64.lt_iff hf F64.finite_twoPi).2 hlt⟩
    rw [← Bool.not_eq_true, F64.lt_iff hf h0, F64.toReal_zero]
    exact not_lt.2 hge

/-- From a number at or above 0 and below `2^53` the loop of `wrap` ends, with a phase. -/
theorem F64.exists_wrapsTo (n : Nat) (hn : n ≤ 2 ^ 53) (hf : F64.finite p = true) (h0 : 0 ≤ F64.toReal p)
    (hlt : F64.toReal p < n) : ∃ q, WrapsTo (F64.num t) p q ∧ (F64.num t).inTurn q = true := by
  induction n generalizing p with
  | zero => rw [Nat.cast_zero] at hlt; linarith
  | succ n ih =>
    rcases lt_or_ge (F64.toReal p) (F64.toReal F64.twoPi) with hp | hp
    · have hl : (F64.num t).lt p (F64.num t).twoPi = true := (F64.lt_iff hf F64.finite_twoPi).2 hp
      exact ⟨p, ⟨0, wrapLoop_below _ hl 0⟩, F64.inTurn_iff.2 ⟨hf, h0, hp⟩⟩
    · have hl : (F64.num t).lt p (F64.num t).twoPi = false := by
        rw [← Bool.not_eq_true]
        exact fun h => absurd ((F64.lt_iff hf F64.finite_twoPi).1 h) (not_lt.2 hp)
      have h53 : ((n + 1 : ℕ) : ℝ) ≤ 2 ^ 53 := by exact_mod_cast hn
      have hdown := F64.sub_twoPi_le_of_lt hf hp (hlt.trans_le h53)
      push_cast at hlt
      obtain ⟨q, ⟨k, hk⟩, hq⟩ := ih (by omega) (F64.sub_twoPi_nearest hf hp).finite (F64.sub_twoPi_nonneg hf hp) (by linarith)
      exact ⟨q, ⟨k + 1, (wrapLoop_above _ hl k).trans hk⟩, hq⟩

/-- The increment of a 16-bit frequency is a small number at or above 0 (R112). -/
theorem F64.incr_mem (f : Word) : F64.finite (incr (F64.num t) f) = true ∧
    0 ≤ F64.toReal (incr (F64.num t) f) ∧ F64.toReal (incr (F64.num t) f) ≤ (500000 : ℕ) := by
  have hfw : (f.toNat : ℝ) ≤ 65535 := by exact_mod_cast Nat.le_of_lt_succ f.isLt
  have hf0 : (0 : ℝ) ≤ f.toNat := Nat.cast_nonneg _
  obtain ⟨h6, h7⟩ := F64.twoPi_mem
  obtain ⟨hff, hfval⟩ := F64.ofInt_exact (n := (f.toNat : ℤ)) (by have := f.isLt; omega)
  obtain ⟨hsf, hsval⟩ := F64.ofInt_exact (n := (fs : ℤ)) (by decide)
  have hs : F64.toReal (F64.ofInt (fs : ℤ)) = 8000 := by rw [hsval, fs]; norm_num
  have hmul := F64.mul_rounds F64.finite_twoPi hff
  rw [hfval, Int.cast_natCast] at hmul
  obtain ⟨hmf, hm0, hm1⟩ := hmul.le_nat (n := 500000) (by positivity) (by push_cast; nlinarith) (by norm_num)
  have hdiv := F64.div_rounds hmf hsf (by rw [hs]; norm_num)
  rw [hs] at hdiv
  exact hdiv.le_nat (by positivity) ((div_le_self hm0 (by norm_num)).trans hm1) (by norm_num)

/-- A phase advances to a phase, at every 16-bit frequency (R22, R113). -/
theorem F64.exists_advance_inTurn (f : Word) (hp : (F64.num t).inTurn p = true) :
    ∃ q, advance (F64.num t) f p = some q ∧ (F64.num t).inTurn q = true := by
  by_cases hf0 : f = 0
  · exact ⟨p, by rw [hf0, advance_zero], hp⟩
  · obtain ⟨hf, h0, h1⟩ := F64.inTurn_iff.1 hp
    obtain ⟨hif, hi0, hi1⟩ := F64.incr_mem (t := t) f
    obtain ⟨-, h7⟩ := F64.twoPi_mem
    obtain ⟨hsf, hs0, hs1⟩ := (F64.add_rounds hf hif).le_nat (n := 500007) (by linarith)
      (by push_cast at hi1 ⊢; linarith) (by norm_num)
    obtain ⟨q, hq, hin⟩ := F64.exists_wrapsTo (t := t) 500008 (by norm_num) hsf hs0 (hs1.trans_lt (by norm_num))
    exact ⟨q, (advance_active _ hf0 p).trans (wrap_eq_some_iff_wrapsTo.2 hq), hin⟩

end

/-- Both phases lie in `[0, 2π)`. -/
structure PhasesInTurn {R : Type} (N : Num R) (ph : Phases R) : Prop where
  lo : N.inTurn ph.lo = true
  hi : N.inTurn ph.hi = true

/-- From phases in range `RENDER` of any count completes, with phases in range. -/
theorem F64.exists_render {t : Trig} (p : Params) (fLo fHi : Word) (n : Nat) {ph : Phases F64} (h : PhasesInTurn (F64.num t) ph) :
    ∃ xs q, render (F64.num t) p fLo fHi n ph = some (xs, q) ∧ PhasesInTurn (F64.num t) q := by
  induction n generalizing ph with
  | zero => exact ⟨[], ph, render_zero ph, h⟩
  | succ n ih =>
    obtain ⟨lo, hlo, hlo'⟩ := F64.exists_advance_inTurn fLo h.lo
    obtain ⟨hi, hhi, hhi'⟩ := F64.exists_advance_inTurn fHi h.hi
    obtain ⟨xs, q, hr, hq⟩ := ih (ph := { lo := lo, hi := hi }) ⟨hlo', hhi'⟩
    exact ⟨_, q, (render_succ_eq_some _).2 ⟨_, xs, (advanceBoth_eq_some _).2 ⟨hlo, hhi⟩, hr, rfl⟩, hq⟩

/-! ## The statement -/

/-- Settles O48: a pass that changes the value takes at least one off `round`, and a phase with its increment is far below
`2^53`, where every pass does. -/
theorem renderCompletesAndKeepsPhasesInTurn : Obligations.RenderCompletesAndKeepsPhasesInTurn := by
  refine fun t => ⟨fun p q => ⟨fun ⟨_, hn⟩ => F64.wrapLoop_wrapPasses hn, fun h => ⟨_, h⟩⟩, fun p fLo fHi n ph hlo hhi => ?_⟩
  obtain ⟨xs, q, hr, hq⟩ := F64.exists_render p fLo fHi n ⟨hlo, hhi⟩
  exact ⟨xs, q, hr, hq.lo, hq.hi⟩

end Sys2Proof.Machine

/-! PROOFS. The invariant of the state (10_state.md): what reset, a command and `CYCLE` do to it, that no step from it stops, and how
many `CYCLE`s a tick can take. -/

namespace Sys2Proof.Machine

/-! ## Levels are not negative (R35) -/

section

variable {x : F64} {t : Trig}

theorem levelOk_of_isNaN (h : F64.isNaN x = true) : levelOk x = true := by
  rw [levelOk, F64.lt_of_isNaN (.inl h), Bool.not_false]

theorem levelOk_of_key_nonneg (h : 0 ≤ F64.key x) : levelOk x = true := by
  have hz : F64.key 0 = 0 := by decide
  rw [levelOk, Bool.not_eq_true', ← Bool.not_eq_true]
  intro hlt
  have hkey := (F64.lt_iff_key (F64.isNaN_of_lt hlt) (by decide)).1 hlt
  omega

theorem F64.key_of_neg_false (h : F64.neg x = false) : F64.key x = F64.mag x := by
  rw [F64.key, h]
  rfl

/-- What a root can be: not a number, its operand where that is a zero or an infinity, or the root of a positive finite number. -/
theorem F64.sqrt_cases (x : F64) : F64.isNaN (F64.sqrt x) = true ∨ (0 ≤ F64.key x ∧ F64.sqrt x = x) ∨
    (F64.finite x = true ∧ 0 < F64.toReal x ∧ F64.sqrt x = F64.sqrtPos x) := by
  rw [F64.sqrt]
  split_ifs with hnan hz hneg hinf
  · exact .inl (F64.isNaN_nan 4 x x)
  · rw [F64.isZero, beq_iff_eq] at hz
    exact .inr (.inl ⟨by simp [F64.key, hz], rfl⟩)
  · exact .inl (F64.isNaN_nan 4 x x)
  · rw [Bool.not_eq_true] at hneg
    exact .inr (.inl ⟨by rw [F64.key_of_neg_false hneg]; omega, rfl⟩)
  · rw [Bool.not_eq_true] at hneg
    have hf : F64.finite x = true := ((F64.kind x).resolve_left hnan).resolve_left hinf
    have h0 : 0 ≤ F64.toReal x := by rw [F64.toReal_of_neg_false hneg]; positivity
    exact .inr (.inr ⟨hf, lt_of_le_of_ne h0 fun h => hz (F64.isZero_iff.2 h.symm), rfl⟩)

/-- A root is never negative, whatever is under it. -/
theorem levelOk_sqrt (x : F64) : levelOk (F64.sqrt x) = true := by
  obtain hnan | ⟨hkey, hs⟩ | ⟨hf, hpos, hs⟩ := F64.sqrt_cases x
  · exact levelOk_of_isNaN hnan
  · rw [hs]
    exact levelOk_of_key_nonneg hkey
  · rw [hs]
    exact levelOk_of_key_nonneg (by rw [F64.key_of_neg_false (F64.sqrtPos_spec hf hpos).2]; omega)

theorem levelOk_zeroLevels (k : Fin 8) : levelOk (zeroLevels (F64.num t))[k] = true := by
  rw [zeroLevels_getElem, F64.num_zero]
  decide

/-- Every lane ends with a root (R91). -/
theorem levelOk_detectAll {xs : List Sample} {v : Vector F64 8} (h : detectAll (F64.num t) xs = some v) (k : Fin 8) :
    levelOk v[k] = true := by
  have hne : xs ≠ [] := by
    rintro rfl
    cases h
  rw [detectAll_eq_ofFn_lane hne, Option.some.injEq] at h
  have hk : v[k] = lane (F64.num t) xs k := by
    rw [← h]
    exact Vector.getElem_ofFn k.isLt
  rw [hk]
  exact levelOk_sqrt _

end

/-! ## Frequencies of a glyph (R24) -/

theorem lowOk_lowFreq : ∀ r : Fin 4, lowOk (lowFreq r) = true ∧ lowFreq r ≠ 0 := by decide

theorem highOk_highFreq : ∀ c : Fin 4, highOk (highFreq c) = true ∧ highFreq c ≠ 0 := by decide

theorem freqOk_of_lookup {g : Byte} {lo hi : Word} (h : lookup g = some (lo, hi)) :
    lowOk lo = true ∧ highOk hi = true ∧ (lo = 0 ↔ hi = 0) := by
  obtain ⟨k, -, -, hp⟩ := lookup_eq_some_iff.1 h
  obtain ⟨rfl, rfl⟩ := Prod.mk.inj hp
  obtain ⟨hlo, hlo0⟩ := lowOk_lowFreq k.row
  obtain ⟨hhi, hhi0⟩ := highOk_highFreq k.col
  exact ⟨hlo, hhi, iff_of_false hlo0 hhi0⟩

/-! ## What keeps the invariant -/

section

variable {t : Trig} {s s' : State}

theorem Inv.takeInput (h : Inv s) : Inv (takeInput s) := { h with }

theorem Inv.tbegin (h : Inv s) : Inv (tbegin s) := { h with }

theorem Inv.respond (h : Inv s) (c : RespCode) : Inv (respond c s) := { h with }

theorem F64.inTurn_zero : (F64.num t).inTurn (F64.num t).zero = true := by
  rw [F64.num_zero, F64.inTurn_iff, F64.toReal_zero]
  exact ⟨by decide, le_rfl, by linarith [F64.twoPi_mem.1]⟩

/-- What reset leaves meets the invariant, with the parameters that were legal before. -/
theorem Inv.construct (h : s.params.wf = true) : Inv (construct (F64.num t) s) where
  phLo := F64.inTurn_zero
  phHi := F64.inTurn_zero
  fLo := rfl
  fHi := rfl
  both := Iff.rfl
  levels := levelOk_zeroLevels
  params := h
  sinkErr := fun _ => rfl

/-- A command keeps the invariant: a `SELECT` writes the pair of a glyph, and playing is turned on with `SINK_ERR` cleared. -/
theorem Inv.afterCommand (h : Inv s) (i : Instr) : Inv (afterCommand i s) := by
  have hfreq : lowOk (Machine.afterCommand i s).fLo = true ∧ highOk (Machine.afterCommand i s).fHi = true ∧
      ((Machine.afterCommand i s).fLo = 0 ↔ (Machine.afterCommand i s).fHi = 0) := by
    by_cases hne : (Machine.afterCommand i s).fLo ≠ s.fLo ∨ (Machine.afterCommand i s).fHi ≠ s.fHi
    · obtain ⟨g, -, hl⟩ := lookup_of_afterCommand_freq_ne hne
      exact freqOk_of_lookup hl
    · obtain ⟨hlo, hhi⟩ := not_or.1 hne
      rw [not_not.1 hlo, not_not.1 hhi]
      exact ⟨h.fLo, h.fHi, h.both⟩
  have herr : (Machine.afterCommand i s).sinkErr = true → (Machine.afterCommand i s).playing = false := by
    rw [afterCommand_sinkErr, afterCommand_playing]
    cases i with
    | play => exact fun he => absurd he Bool.false_ne_true
    | stop => exact fun _ => rfl
    | toggle =>
      intro he
      obtain ⟨hp, he⟩ := Bool.and_eq_true_iff.1 he
      rw [h.sinkErr he] at hp
      cases hp
    | select | tick | notify | poll => exact h.sinkErr
  exact
    { phLo := by rw [afterCommand_phLo]; exact h.phLo
      phHi := by rw [afterCommand_phHi]; exact h.phHi
      fLo := hfreq.1
      fHi := hfreq.2.1
      both := hfreq.2.2
      levels := by rw [afterCommand_levels]; exact h.levels
      params := by rw [afterCommand_params]; exact h.params
      sinkErr := herr }

theorem Inv.phasesInTurn (h : Inv s) : PhasesInTurn (F64.num t) { lo := s.phLo, hi := s.phHi } := ⟨h.phLo, h.phHi⟩

/-- A `RENDER` from a legal state completes with legal phases. -/
theorem Inv.exists_rendered (h : Inv s) (n : Word) :
    ∃ buf ph, rendered (F64.num t) s n = some (buf, ph) ∧ PhasesInTurn (F64.num t) ph :=
  F64.exists_render s.params s.fLo s.fHi n.toNat h.phasesInTurn

/-- `CYCLE` keeps the invariant in every branch, with any `sin` and `cos`. -/
theorem Inv.cycle (h : Inv s) (hc : cycle (F64.num t) s = .next s') : Inv s' := by
  obtain ⟨-, rfl⟩ | ⟨-, -, ⟨-, rfl⟩ | ⟨n, -, -, rfl⟩⟩ | ⟨n, buf, ph, -, hr, hw⟩ := cycle_next hc
  · exact { h with levels := levelOk_zeroLevels }
  · exact { h with levels := levelOk_zeroLevels, sinkErr := fun _ => rfl }
  · exact { h with }
  · obtain ⟨buf', ph', hr', hph⟩ := h.exists_rendered (t := t) n
    rw [hr, Option.some.injEq, Prod.mk.injEq] at hr'
    rw [← hr'.2] at hph
    obtain ⟨-, rfl⟩ | ⟨-, v, hd, rfl⟩ := hw
    · exact { h with phLo := hph.lo, phHi := hph.hi, levels := levelOk_zeroLevels, sinkErr := fun _ => rfl }
    · exact { h with phLo := hph.lo, phHi := hph.hi, levels := levelOk_detectAll hd }

/-! ## What completes -/

/-- From a legal state `CYCLE` completes: `RENDER` does, and at a legal threshold no block is empty. -/
theorem Inv.exists_cycle (h : Inv s) (t : Trig) : ∃ s', Machine.cycle (F64.num t) s = .next s' := by
  by_cases hidle : s.playing = false ∨ bothInactive s = true
  · exact ⟨_, cycle_of_idle hidle⟩
  obtain ⟨hp, hact⟩ := not_or.1 hidle
  rw [Bool.not_eq_false] at hp
  rw [Bool.not_eq_true] at hact
  cases hcap : nextCap s.sink with
  | fail => exact ⟨_, (cycle_of_streaming hp hact).trans (pullCycle_of_cap_fail hcap)⟩
  | ok n =>
    by_cases hn : n.toNat < s.params.threshold
    · exact ⟨_, (cycle_of_streaming hp hact).trans ((pullCycle_of_cap_ok hcap).trans (if_pos hn))⟩
    · have hren : Renders s n := ⟨hp, hact, hcap, Nat.not_lt.1 hn⟩
      obtain ⟨buf, ph, hr, -⟩ := h.exists_rendered (t := t) n
      cases hw : nextWr s.sink with
      | fail => exact ⟨_, cycle_of_write_fail hren hr hw⟩
      | ok =>
        have hwf := h.params
        simp only [Params.wf, Bool.and_eq_true, decide_eq_true_eq] at hwf
        obtain ⟨⟨-, hthr⟩, -⟩ := hwf
        have hlen : buf.length = n.toNat := render_length _ hr
        obtain ⟨v, hd⟩ := detectAll_of_ne_nil (F64.num t) (xs := buf) (List.length_pos_iff.1 (by omega))
        exact ⟨_, cycle_of_write_ok hren hr hw hd⟩

/-- From a legal state every step completes, whichever agent acts. -/
theorem Inv.exists_step (h : Inv s) : ∃ s', step s = .next s' := by
  cases hi : nextInput s.agents with
  | command w =>
    cases hd : decode w with
    | ok i => exact ⟨_, (step_of_command hi hd).trans (exec_eq i _)⟩
    | error e => exact ⟨_, step_of_illegal_command hi hd⟩
  | controller =>
    rw [step_of_controller hi]
    cases hs : s.seq with
    | head =>
      rw [controllerTurn_of_head (s := Machine.takeInput s) hs]
      exact h.takeInput.exists_cycle machineTrig
    | rest =>
      cases ht : s.tickReq with
      | true => exact ⟨_, controllerTurn_of_tick (s := Machine.takeInput s) hs ht⟩
      | false => exact ⟨_, controllerTurn_of_quiescent (s := Machine.takeInput s) (quiescent_iff.2 ⟨hs, ht⟩)⟩
  | reset => exact ⟨_, step_of_reset hi⟩

end

/-! ## How a tick ends (R59, R144, R196) -/

section

variable {R : Type} {N : Num R} {s s' : State R} {k : SinkPort}

theorem capAt_zero : capAt k 0 = nextCap k := by
  cases h : k.capScript with
  | nil => rw [nextCap_of_nil h]; simp only [capAt, h]; rfl
  | cons a r => rw [nextCap_of_cons h]; simp only [capAt, h]; rfl

/-- A query takes the coming answers on by one. -/
theorem capAt_capDone (i : Nat) : capAt (capDone k) i = capAt k (i + 1) := by
  have hasked : k.capAsked + 1 + i = k.capAsked + (i + 1) := by omega
  simp only [capAt, capDone_capScript, capDone_capAsked, List.getElem?_tail, hasked]

theorem capAt_wrDone (buf : List Sample) (i : Nat) : capAt (wrDone buf k) i = capAt k i := rfl

theorem endsTick_ok_eq_false {threshold : Nat} {n : Word} (h : threshold ≤ n.toNat) : endsTick threshold (.ok n) = false :=
  decide_eq_false (Nat.not_lt.2 h)

/-- `CYCLE` ends the tick, or the sink has reported enough and has taken a chunk. -/
theorem cycle_rest_or_chunk (h : cycle N s = .next s') : s'.seq = .rest ∨
    (s'.params = s.params ∧ ∃ n buf, nextCap s.sink = .ok n ∧ s.params.threshold ≤ n.toNat ∧
      s'.sink = wrDone buf (capDone s.sink)) := by
  obtain ⟨-, rfl⟩ | ⟨-, -, ⟨-, rfl⟩ | ⟨n, -, -, rfl⟩⟩ | ⟨n, buf, ph, hren, -, ⟨-, rfl⟩ | ⟨-, v, -, rfl⟩⟩ := cycle_next h
  · exact .inl rfl
  · exact .inl rfl
  · exact .inl rfl
  · exact .inl rfl
  · exact .inr ⟨rfl, n, buf, hren.cap, hren.enough, rfl⟩

theorem runTick_of_rest (n : Nat) (h : s.seq = .rest) : runTick N n s = .next s := by
  cases n <;> simp [runTick, cycleEnabled, h]

theorem runTick_succ_of_head (n : Nat) (hs : s.seq = .head) (h : cycle N s = .next s') :
    runTick N (n + 1) s = runTick N n s' := by
  simp [runTick, cycleEnabled, hs, h]

end

/-- The first of the `CYCLE`s of a tick ends it, or leaves a legal state in which one answer, not one to end a tick, is used up. -/
theorem Inv.runTick_succ {t : Trig} {s : State} (h : Inv s) (n : Nat) :
    (∃ s', runTick (F64.num t) (n + 1) s = .next s' ∧ s'.seq = .rest) ∨
    (endsTick s.params.threshold (capAt s.sink 0) = false ∧
      ∃ s₁, Inv s₁ ∧ runTick (F64.num t) (n + 1) s = runTick (F64.num t) n s₁ ∧ s₁.params = s.params ∧
        ∀ j, capAt s₁.sink j = capAt s.sink (j + 1)) := by
  cases hs : s.seq with
  | rest => exact .inl ⟨s, runTick_of_rest _ hs, hs⟩
  | head =>
    obtain ⟨s₁, hc⟩ := h.exists_cycle t
    rw [runTick_succ_of_head n hs hc]
    obtain hrest | ⟨hparams, m, buf, hcap, hm, hsink⟩ := cycle_rest_or_chunk hc
    · exact .inl ⟨s₁, runTick_of_rest n hrest, hrest⟩
    · refine .inr ⟨?_, s₁, h.cycle hc, rfl, hparams, fun j => ?_⟩
      · rw [capAt_zero, hcap, endsTick_ok_eq_false hm]
      · rw [hsink, capAt_wrDone, capAt_capDone]

/-- The answer that ends a tick ends it, once the answers before it are used up. -/
theorem Inv.exists_runTick_rest {t : Trig} (i : Nat) {s : State} (h : Inv s)
    (hend : endsTick s.params.threshold (capAt s.sink i) = true) :
    ∃ s', runTick (F64.num t) (i + 1) s = .next s' ∧ s'.seq = .rest := by
  induction i generalizing s with
  | zero =>
    obtain hrest | ⟨hgo, -⟩ := h.runTick_succ (t := t) 0
    · exact hrest
    · rw [hgo] at hend
      cases hend
  | succ i ih =>
    obtain hrest | ⟨-, s₁, h₁, hrun, hparams, hcaps⟩ := h.runTick_succ (t := t) (i + 1)
    · exact hrest
    · rw [hrun]
      exact ih h₁ (by rwa [hparams, hcaps])

/-! ## The statements -/

/-- Settles O57: the invariant is kept by a command, by each controller step and by reset. -/
theorem everyStepKeepsTheInvariant : Obligations.EveryStepKeepsTheInvariant := by
  intro s s' hinv h
  obtain ⟨w, -, ⟨i, -, rfl⟩ | ⟨e, -, rfl⟩⟩ | ⟨-, ⟨-, hc⟩ | ⟨-, -, rfl⟩ | ⟨-, -, rfl⟩⟩ | ⟨-, rfl⟩ := step_next h
  · exact hinv.takeInput.afterCommand i
  · exact hinv.takeInput.respond .illegalCommand
  · exact hinv.takeInput.cycle hc
  · exact hinv.takeInput.tbegin
  · exact hinv.takeInput
  · exact .construct hinv.params

/-- Settles O58, by `Inv.exists_step`. -/
theorem noLegalStateStops : Obligations.NoLegalStateStops := fun _ => Inv.exists_step

/-- Settles O59, by induction on the index of the answer that ends the tick. -/
theorem aTickEndsWhenTheSinkRunsFull : Obligations.ATickEndsWhenTheSinkRunsFull := fun _ _ i h hend =>
  h.exists_runTick_rest i hend

/-- Settles O56: the reset state is a reset of itself. -/
theorem resetMeetsTheInvariant : Obligations.ResetMeetsTheInvariant :=
  Inv.construct (t := machineTrig) (s := State.reset) rfl

end Sys2Proof.Machine

/-! PROOFS. `IDEAL` (00_scope.md, R9, R10): wrapping as the remainder by 2π, the named properties, and the detector as a Fourier sum;
silence, in every record that keeps zeros (40_detector.md). -/

namespace Sys2Proof.Machine

/-! ## Wrapping in `IDEAL` (R113) -/

section

variable {p q : ℝ}

/-- From the turn number `k` the loop takes `k` turns away. -/
theorem ideal_wrapLoop_of_turn (k : ℕ) (h0 : 2 * Real.pi * k ≤ p) (h1 : p < 2 * Real.pi * (k + 1)) :
    wrapLoop ideal k p = some (p - 2 * Real.pi * k) := by
  have hpi := Real.pi_pos
  induction k generalizing p with
  | zero =>
    rw [wrapLoop_below ideal ((ideal_lt _ _).2 (by simpa using h1))]
    simp
  | succ k ih =>
    push_cast at h0 h1
    have hk : 0 ≤ 2 * Real.pi * (k : ℝ) := by positivity
    have hl : ideal.lt p ideal.twoPi = false := by
      rw [← Bool.not_eq_true, ideal_lt, ideal_twoPi]
      linarith
    rw [wrapLoop_above ideal hl, ideal_sub, ideal_twoPi, ih (by linarith) (by linarith)]
    push_cast
    ring_nf

/-- The remainder of `p` by 2π is a phase, and it is left after as many passes as there are whole turns in `p`. -/
theorem ideal_wrapLoop_floor (hp : 0 ≤ p) : wrapLoop ideal ⌊p / (2 * Real.pi)⌋₊ p =
    some (p - 2 * Real.pi * (⌊p / (2 * Real.pi)⌋ : ℝ)) := by
  have hpi : 0 < 2 * Real.pi := Real.two_pi_pos
  have hk := Nat.floor_le (div_nonneg hp hpi.le)
  have hk1 := Nat.lt_floor_add_one (p / (2 * Real.pi))
  rw [le_div_iff₀ hpi, mul_comm] at hk
  rw [div_lt_iff₀ hpi, mul_comm] at hk1
  rw [← natCast_floor_eq_intCast_floor (div_nonneg hp hpi.le)]
  exact ideal_wrapLoop_of_turn _ hk hk1

theorem ideal_wrap_of_nonneg (hp : 0 ≤ p) : wrap ideal p = some (p - 2 * Real.pi * (⌊p / (2 * Real.pi)⌋ : ℝ)) :=
  wrap_eq_some_iff_wrapsTo.2 ⟨_, ideal_wrapLoop_floor hp⟩

/-- A turn is more than 1, so there are no more turns in `p` than `round p`: the passes tried first end the loop. -/
theorem exists_ideal_wrapLoop_wrapPasses (p : ℝ) : ∃ q, wrapLoop ideal (wrapPasses ideal p) p = some q := by
  rcases lt_or_ge p 0 with hneg | hp
  · exact ⟨p, wrapLoop_below ideal ((ideal_lt _ _).2 (hneg.trans Real.two_pi_pos)) _⟩
  · have hk : (⌊p / (2 * Real.pi)⌋₊ : ℝ) ≤ p :=
      (Nat.floor_le (div_nonneg hp Real.two_pi_pos.le)).trans (div_le_self hp (by linarith [Real.pi_gt_three]))
    have hround : (⌊p / (2 * Real.pi)⌋₊ : ℤ) ≤ idealRound p := by
      rw [idealRound, if_pos hp, Int.le_floor]
      push_cast
      linarith
    exact ⟨_, wrapLoop_mono (ideal_wrapLoop_floor hp) (show _ ≤ (idealRound p).toNat + 1 by omega)⟩

theorem ideal_inTurn_mod (p : ℝ) : ideal.inTurn (p - 2 * Real.pi * (⌊p / (2 * Real.pi)⌋ : ℝ)) = true := by
  have hpi : 0 < 2 * Real.pi := Real.two_pi_pos
  have h0 := Int.floor_le (p / (2 * Real.pi))
  have h1 := Int.lt_floor_add_one (p / (2 * Real.pi))
  rw [le_div_iff₀ hpi, mul_comm] at h0
  rw [div_lt_iff₀ hpi, mul_comm] at h1
  rw [ideal_inTurn]
  constructor <;> linarith

end

/-! ## The named properties of `IDEAL` (R10) -/

theorem idealVal_eq_zero_iff {x : ℝ} : idealVal x = some 0 ↔ x = 0 := by
  rw [idealVal, Option.some.injEq]

theorem ideal_numZero : NumZero ideal idealVal where
  zero := idealVal_eq_zero_iff.2 ideal_zero
  add a b ha hb := by
    rw [idealVal_eq_zero_iff] at ha hb ⊢
    rw [ideal_add, ha, hb, add_zero]
  sub a b ha hb := by
    rw [idealVal_eq_zero_iff] at ha hb ⊢
    rw [ideal_sub, ha, hb, sub_zero]
  mul c z _ hz := by
    rw [idealVal_eq_zero_iff] at hz ⊢
    rw [ideal_mul, hz, mul_zero]
  div z h hz _ := by
    rw [idealVal_eq_zero_iff] at hz ⊢
    rw [ideal_div, hz, zero_div]
  sqrt z hz := by
    rw [idealVal_eq_zero_iff] at hz ⊢
    rw [ideal_sqrt, hz, Real.sqrt_zero]
  sin := by rw [idealVal_eq_zero_iff, ideal_zero, ideal_sin, Real.sin_zero]

theorem ideal_mulZeroLeft : MulZeroLeft ideal idealVal := fun z c hz _ => by
  rw [idealVal_eq_zero_iff] at hz ⊢
  rw [ideal_mul, hz, zero_mul]

theorem ideal_numTrig : NumTrig ideal idealVal := fun x _ =>
  ⟨x, Real.sin x, Real.cos x, rfl, rfl, rfl, by rw [sub_self, abs_zero]; positivity, by rw [sub_self, abs_zero]; positivity,
    Real.abs_sin_le_one x⟩

/-- A number of at most `V` in size is rounded to an integer of at most `V` in size. -/
theorem idealRound_mem {x : ℝ} {V : ℕ} (h : |x| ≤ V) : -(V : ℤ) ≤ idealRound x ∧ idealRound x ≤ V := by
  have hnn : ∀ {y : ℝ}, 0 ≤ y → y ≤ V → 0 ≤ idealRound y ∧ idealRound y ≤ V := fun {y} h0 h1 => by
    refine ⟨idealRound_nonneg h0, ?_⟩
    rw [idealRound, if_pos h0, ← Int.lt_add_one_iff, Int.floor_lt]
    push_cast
    linarith
  obtain ⟨h1, h2⟩ := abs_le.1 h
  rcases le_total 0 x with h0 | h0
  · obtain ⟨ha, hb⟩ := hnn h0 h2
    omega
  · obtain ⟨ha, hb⟩ := hnn (neg_nonneg.2 h0) (by linarith)
    have hneg := idealRound_neg (neg_nonneg.2 h0)
    rw [neg_neg] at hneg
    omega

theorem ideal_numRange : NumRange ideal := fun p V _ _ => by
  rw [ideal_round, ideal_mul, ideal_sin, ideal_ofInt, Int.cast_natCast]
  apply idealRound_mem
  rw [abs_mul, Nat.abs_cast]
  exact mul_le_of_le_one_left (Nat.cast_nonneg V) (Real.abs_sin_le_one p)

theorem ideal_numWrap : NumWrap ideal := fun p d hp hd => by
  rw [ideal_inTurn] at hp
  rw [ideal_ge, ideal_zero] at hd
  rw [ideal_add]
  exact ⟨_, ⟨_, ideal_wrapLoop_floor (add_nonneg hp.1 hd)⟩, ideal_inTurn_mod _⟩

/-! ## Silence (R95) -/

/-- What `DETECT` needs of a record to find nothing in silence: that operations on zeros give zeros, the division by `half` among
them. NUM-ZERO with `MulZeroLeft` gives it, and so does binary64. -/
structure KeepsSilence {R : Type} (N : Num R) (val : R → Option ℝ) (half : R) : Prop where
  zero : val N.zero = some 0
  add : ∀ a b, val a = some 0 → val b = some 0 → val (N.add a b) = some 0
  sub : ∀ a b, val a = some 0 → val b = some 0 → val (N.sub a b) = some 0
  mul : ∀ c z, (val c).isSome → val z = some 0 → val (N.mul c z) = some 0
  mulLeft : MulZeroLeft N val
  div : ∀ z, val z = some 0 → val (N.div z half) = some 0
  sqrt : ∀ z, val z = some 0 → val (N.sqrt z) = some 0

section

variable {R : Type} {N : Num R} {val : R → Option ℝ} {half : R} (h : KeepsSilence N val half)
include h

theorem KeepsSilence.goertzel {c : R} (hc : (val c).isSome = true) (n : ℕ) {q : Scratch R}
    (hq : val q.q1 = some 0 ∧ val q.q2 = some 0) :
    val (goertzel N c (List.replicate n 0) q).q1 = some 0 ∧ val (goertzel N c (List.replicate n 0) q).q2 = some 0 := by
  induction n generalizing q with
  | zero => exact hq
  | succ n ih => exact ih ⟨h.add _ _ (h.sub _ _ (h.mul c _ hc hq.1) hq.2) h.zero, hq.1⟩

theorem KeepsSilence.magnitude {w : R} {n : ℕ} (hhalf : N.div (N.ofInt n) (N.ofInt 2) = half)
    (hs : (val (N.sin w)).isSome = true) (hc : (val (N.cos w)).isSome = true) {q : Scratch R}
    (hq : val q.q1 = some 0 ∧ val q.q2 = some 0) : val (magnitude N w n q) = some 0 := by
  have hsq : ∀ z, val z = some 0 → val (N.mul z z) = some 0 := fun z hz => h.mul z z (by rw [hz]; rfl) hz
  subst hhalf
  refine h.sqrt _ (h.add _ _ (hsq _ (h.div _ ?_)) (hsq _ (h.div _ ?_)))
  · exact h.sub _ _ hq.1 (h.mulLeft _ _ hq.2 hc)
  · exact h.mulLeft _ _ hq.2 hs

end

/-- A block of `n ≥ 1` zeros is detected as a numerical zero. -/
theorem exists_detect_silence {R : Type} {N : Num R} {val : R → Option ℝ} {n rate f : ℕ}
    (h : KeepsSilence N val (N.div (N.ofInt n) (N.ofInt 2))) (hn : 1 ≤ n) (hs : (val (N.sin (angle N rate f))).isSome = true)
    (hc : (val (N.cos (angle N rate f))).isSome = true) (hco : (val (coeff N (angle N rate f))).isSome = true) :
    ∃ m, detect N (List.replicate n 0) rate f = some m ∧ val m = some 0 := by
  have hne : List.replicate n (0 : Sample) ≠ [] := by
    rw [ne_eq, List.replicate_eq_nil_iff]
    omega
  refine ⟨_, detect_of_ne_nil hne rate f, ?_⟩
  exact h.magnitude (by rw [List.length_replicate]) hs hc (h.goertzel hco n ⟨h.zero, h.zero⟩)

theorem NumZero.keepsSilence {R : Type} {N : Num R} {val : R → Option ℝ} (hz : NumZero N val) (hl : MulZeroLeft N val) {half : R}
    (hhalf : val half ≠ some 0) : KeepsSilence N val half :=
  { zero := hz.zero, add := hz.add, sub := hz.sub, mul := hz.mul, mulLeft := hl, div := fun z h => hz.div z half h hhalf,
    sqrt := hz.sqrt }

/-! ## Silence in binary64 -/

section

variable {x : ℝ} {r z c : F64}

theorem F64.isSome_val : (F64.val c).isSome = true ↔ F64.finite c = true := by
  rw [F64.val]
  split <;> simp [*]

theorem F64.isInf_inf (s : Bool) : F64.isInf (F64.inf s) = true := by
  rw [F64.isInf, F64.inf, F64.mag_ofBits s (by norm_num), beq_iff_eq]

/-- A zero correctly rounded is a zero. -/
theorem F64.Rounds.val_zero (h : F64.Rounds 0 r) : F64.val r = some 0 := by
  obtain ⟨hf, hval⟩ := F64.rounds_exact h (by decide : F64.finite 0 = true) F64.toReal_zero
  rw [F64.val_of_finite hf, hval]

theorem F64.finite_and_toReal_of_val_zero (h : F64.val z = some 0) : F64.finite z = true ∧ F64.toReal z = 0 :=
  ⟨F64.finite_of_isZero (F64.val_eq_zero_iff.1 h), F64.isZero_iff.1 (F64.val_eq_zero_iff.1 h)⟩

theorem F64.Rounds.nearest_or_isInf (h : F64.Rounds x r) : F64.Nearest x r ∨ F64.isInf r = true := by
  rw [F64.Rounds] at h
  split at h
  · exact .inl ⟨h.1, fun y hy => (h.2 y hy).1⟩
  · rw [h]
    exact .inr (F64.isInf_inf _)

/-- A zero divided by a number other than zero, or by an infinity, is a zero. -/
theorem F64.val_zero_div {half : F64} (hz : F64.val z = some 0)
    (hhalf : F64.isInf half = true ∨ (F64.finite half = true ∧ F64.toReal half ≠ 0)) : F64.val (F64.div z half) = some 0 := by
  obtain ⟨hf, h0⟩ := F64.finite_and_toReal_of_val_zero hz
  rcases hhalf with hinf | ⟨hhf, hh0⟩
  · have hnan : F64.isNaN half = false := F64.isNaN_of_isInf hinf
    rw [F64.val_eq_zero_iff, F64.isZero]
    simp [F64.div, F64.isNaN_of_finite hf, F64.isInf_of_finite hf, hnan, hinf, F64.mag_ofBits]
  · have hr := F64.div_rounds hf hhf hh0
    rw [h0, zero_div] at hr
    exact hr.val_zero

/-- Half of a count of at least 1 is an infinity, where the count is past the largest finite number, or not zero. -/
theorem F64.half_ne_zero {n : ℕ} (hn : 1 ≤ n) : F64.isInf (F64.div (F64.ofInt n) (F64.ofInt 2)) = true ∨
    (F64.finite (F64.div (F64.ofInt n) (F64.ofInt 2)) = true ∧ F64.toReal (F64.div (F64.ofInt n) (F64.ofInt 2)) ≠ 0) := by
  obtain ⟨h2f, h2⟩ := F64.ofInt_exact (n := 2) (by decide)
  rw [Int.cast_ofNat] at h2
  obtain hr | hinf := (F64.ofInt_rounds n).nearest_or_isInf
  · obtain ⟨one, h1f, h1⟩ := F64.exists_nat 1 (by norm_num)
    have hge := hr.ge h1f (by rw [h1]; exact_mod_cast hn)
    rw [h1, Nat.cast_one] at hge
    have hdiv := F64.div_rounds hr.finite h2f (by rw [h2]; norm_num)
    rw [h2] at hdiv
    have hnear := hdiv.nearest hr.finite (by rw [abs_of_pos (by linarith), abs_of_pos (by linarith)]; linarith)
    obtain ⟨y, hy, hyval⟩ := F64.exists_pattern 1073 (by norm_num) (show 1 < 2 ^ 53 by norm_num)
    have hy2 : F64.toReal y = 1 / 2 := by rw [hyval]; norm_num
    have hhalf := hnear.ge hy (by rw [hy2]; linarith)
    exact .inr ⟨hnear.finite, by linarith⟩
  · left
    have hnan := F64.isNaN_of_isInf hinf
    simp [F64.div, hnan, hinf, F64.isNaN_of_finite h2f, F64.isInf_of_finite h2f, F64.isInf_inf]

theorem F64.keepsSilence (t : Trig) {half : F64} (hhalf : F64.isInf half = true ∨ (F64.finite half = true ∧ F64.toReal half ≠ 0)) :
    KeepsSilence (F64.num t) F64.val half where
  zero := by rw [F64.num_zero, F64.val_zero]
  add a b ha hb := by
    obtain ⟨haf, ha0⟩ := F64.finite_and_toReal_of_val_zero ha
    obtain ⟨hbf, hb0⟩ := F64.finite_and_toReal_of_val_zero hb
    have hr := F64.add_rounds haf hbf
    rw [ha0, hb0, add_zero] at hr
    exact hr.val_zero
  sub a b ha hb := by
    obtain ⟨haf, ha0⟩ := F64.finite_and_toReal_of_val_zero ha
    obtain ⟨hbf, hb0⟩ := F64.finite_and_toReal_of_val_zero hb
    have hr := F64.sub_rounds haf hbf
    rw [ha0, hb0, sub_zero] at hr
    exact hr.val_zero
  mul c z hc hz := by
    obtain ⟨hzf, hz0⟩ := F64.finite_and_toReal_of_val_zero hz
    have hr := F64.mul_rounds (F64.isSome_val.1 hc) hzf
    rw [hz0, mul_zero] at hr
    exact hr.val_zero
  mulLeft z c hz hc := by
    obtain ⟨hzf, hz0⟩ := F64.finite_and_toReal_of_val_zero hz
    have hr := F64.mul_rounds hzf (F64.isSome_val.1 hc)
    rw [hz0, zero_mul] at hr
    exact hr.val_zero
  div z hz := F64.val_zero_div hz hhalf
  sqrt z hz := by
    obtain ⟨hzf, hz0⟩ := F64.finite_and_toReal_of_val_zero hz
    have hr := F64.sqrt_rounds hzf hz0.ge
    rw [hz0, Real.sqrt_zero] at hr
    exact hr.val_zero

end

/-! ## The detector in `IDEAL` as a Fourier sum (R91, R96) -/

/-- `e^(−iθ)`, the turn from one sample of the Fourier sum to the next. -/
noncomputable def unitPhase (θ : ℝ) : ℂ := Complex.exp ((-θ : ℝ) * Complex.I)

theorem unitPhase_zero : unitPhase 0 = 1 := by simp [unitPhase]

theorem unitPhase_add (a b : ℝ) : unitPhase (a + b) = unitPhase a * unitPhase b := by
  rw [unitPhase, unitPhase, unitPhase, ← Complex.exp_add]
  congr 1
  push_cast
  ring

theorem unitPhase_re (θ : ℝ) : (unitPhase θ).re = Real.cos θ := by
  rw [unitPhase, Complex.exp_ofReal_mul_I_re, Real.cos_neg]

theorem unitPhase_im (θ : ℝ) : (unitPhase θ).im = -Real.sin θ := by
  rw [unitPhase, Complex.exp_ofReal_mul_I_im, Real.sin_neg]

theorem norm_unitPhase (θ : ℝ) : ‖unitPhase θ‖ = 1 := Complex.norm_exp_ofReal_mul_I _

/-- The coefficient of the recurrence, `2·cos θ`, is the sum of the turn and its inverse. -/
theorem unitPhase_mul_two_cos (θ : ℝ) : unitPhase θ * (2 * Real.cos θ : ℝ) = 1 + unitPhase θ * unitPhase θ := by
  have hone := Real.sin_sq_add_cos_sq θ
  apply Complex.ext
  · simp only [Complex.mul_re, Complex.add_re, Complex.one_re, Complex.ofReal_re, Complex.ofReal_im, unitPhase_re, unitPhase_im]
    linear_combination hone
  · simp only [Complex.mul_im, Complex.add_im, Complex.one_im, Complex.ofReal_re, Complex.ofReal_im, unitPhase_re, unitPhase_im]
    ring

/-- The scratch of the recurrence as one complex number, `q1 − q2·e^(−iθ)`. -/
noncomputable def scratchValue (θ : ℝ) (q : Scratch ℝ) : ℂ := q.q1 - q.q2 * unitPhase θ

theorem scratchValue_re (θ : ℝ) (q : Scratch ℝ) : (scratchValue θ q).re = q.q1 - q.q2 * Real.cos θ := by
  rw [scratchValue, Complex.sub_re, Complex.re_ofReal_mul, Complex.ofReal_re, unitPhase_re]

theorem scratchValue_im (θ : ℝ) (q : Scratch ℝ) : (scratchValue θ q).im = q.q2 * Real.sin θ := by
  rw [scratchValue, Complex.sub_im, Complex.im_ofReal_mul, Complex.ofReal_im, unitPhase_im]
  ring

/-- The Fourier sum of a block at the angle `θ`. -/
noncomputable def fourierSum (θ : ℝ) (xs : List Sample) : ℂ :=
  ∑ i : Fin xs.length, ((xs.get i).toInt : ℂ) * unitPhase (θ * i)

theorem fourierSum_nil (θ : ℝ) : fourierSum θ [] = 0 := rfl

theorem fourierSum_cons (θ : ℝ) (x : Sample) (xs : List Sample) :
    fourierSum θ (x :: xs) = x.toInt + unitPhase θ * fourierSum θ xs := by
  have hsum : fourierSum θ (x :: xs) =
      ∑ i : Fin (xs.length + 1), (((x :: xs).get i).toInt : ℂ) * unitPhase (θ * i) := rfl
  rw [hsum, Fin.sum_univ_succ, fourierSum, Finset.mul_sum]
  congr 1
  · simp [unitPhase_zero]
  · refine Finset.sum_congr rfl fun i _ => ?_
    have hi : θ * (i.succ : ℕ) = θ + θ * (i : ℕ) := by rw [Fin.val_succ]; push_cast; ring
    have hx : (x :: xs).get i.succ = xs.get i := rfl
    rw [hi, unitPhase_add, hx]
    ring

/-- At the angle 0 the Fourier sum is the sum. -/
theorem fourierSum_zero (xs : List Sample) : fourierSum 0 xs = ((xs.map BitVec.toInt).sum : ℤ) := by
  induction xs with
  | nil => simp [fourierSum_nil]
  | cons x xs ih => rw [fourierSum_cons, ih, unitPhase_zero, List.map_cons, List.sum_cons, Int.cast_add, one_mul]

/-- The real and the imaginary part of the Fourier sum are the cosine and the sine sum. -/
theorem norm_fourierSum (θ : ℝ) (xs : List Sample) : ‖fourierSum θ xs‖ =
    Real.sqrt ((∑ i : Fin xs.length, ((xs.get i).toInt : ℝ) * Real.cos (θ * i)) ^ 2 +
      (∑ i : Fin xs.length, ((xs.get i).toInt : ℝ) * Real.sin (θ * i)) ^ 2) := by
  have hre : (fourierSum θ xs).re = ∑ i : Fin xs.length, ((xs.get i).toInt : ℝ) * Real.cos (θ * i) := by
    simp [fourierSum, unitPhase_re]
  have him : (fourierSum θ xs).im = -∑ i : Fin xs.length, ((xs.get i).toInt : ℝ) * Real.sin (θ * i) := by
    simp [fourierSum, unitPhase_im]
  rw [Complex.norm_eq_sqrt_sq_add_sq, hre, him, neg_sq]

/-- One sample turns the scratch by `θ` and adds the sample to it (R91). -/
theorem scratchValue_goertzelStep (θ : ℝ) (q : Scratch ℝ) (x : Sample) :
    unitPhase θ * scratchValue θ (goertzelStep ideal (coeff ideal θ) q x) = scratchValue θ q + unitPhase θ * x.toInt := by
  have hstep : goertzelStep ideal (coeff ideal θ) q x =
      { q1 := 2 * Real.cos θ * q.q1 - q.q2 + x.toInt, q2 := q.q1 } := by
    simp [goertzelStep, coeff]
  have hturn := unitPhase_mul_two_cos θ
  rw [hstep, scratchValue, scratchValue]
  push_cast at hturn ⊢
  linear_combination (q.q1 : ℂ) * hturn

/-- The scratch after a block, turned back sample by sample, is the scratch before it and the Fourier sum. -/
theorem scratchValue_goertzel (θ : ℝ) (xs : List Sample) (q : Scratch ℝ) :
    unitPhase (θ * xs.length) * scratchValue θ (goertzel ideal (coeff ideal θ) xs q) =
      scratchValue θ q + unitPhase θ * fourierSum θ xs := by
  induction xs generalizing q with
  | nil => simp [goertzel, fourierSum_nil, unitPhase_zero]
  | cons x xs ih =>
    have hlen : θ * ((x :: xs).length : ℕ) = θ + θ * xs.length := by rw [List.length_cons]; push_cast; ring
    rw [hlen, unitPhase_add, goertzel, mul_assoc, ih, fourierSum_cons, mul_add, scratchValue_goertzelStep]
    ring

/-- Turning does not change a size, so the scratch after a block is as large as its Fourier sum. -/
theorem norm_scratchValue_goertzel (θ : ℝ) (xs : List Sample) :
    ‖scratchValue θ (goertzel ideal (coeff ideal θ) xs { q1 := 0, q2 := 0 })‖ = ‖fourierSum θ xs‖ := by
  have h := congrArg norm (scratchValue_goertzel θ xs { q1 := 0, q2 := 0 })
  have hstart : scratchValue θ { q1 := 0, q2 := 0 } = 0 := by simp [scratchValue]
  rwa [hstart, zero_add, norm_mul, norm_mul, norm_unitPhase, norm_unitPhase, one_mul, one_mul] at h

/-- The closing formula is the size of the scratch's value over `N/2` (R91, R92). -/
theorem ideal_magnitude_eq_norm (θ : ℝ) (n : ℕ) (q : Scratch ℝ) :
    magnitude ideal θ n q = ‖scratchValue θ q‖ / (n / 2) := by
  have hsq : ∀ a b h : ℝ, a / h * (a / h) + b / h * (b / h) = (a ^ 2 + b ^ 2) / h ^ 2 := fun a b h => by ring
  rw [ideal_magnitude, hsq, Real.sqrt_div (by positivity), Real.sqrt_sq (by positivity), Complex.norm_eq_sqrt_sq_add_sq,
    scratchValue_re, scratchValue_im]

theorem ideal_angle (rate f : ℕ) : angle ideal rate f = 2 * Real.pi * f / rate := by
  simp [angle]

theorem ideal_detect {xs : List Sample} (h : xs ≠ []) (rate f : ℕ) : detect ideal xs rate f =
    some (‖fourierSum (2 * Real.pi * f / rate) xs‖ / (xs.length / 2)) := by
  rw [detect_of_ne_nil h, detectBlock, ideal_angle, ideal_magnitude_eq_norm, ideal_zero, norm_scratchValue_goertzel]

/-! ## The statements -/

/-- Settles O45: the loop takes the whole turns of `p` away, one in each pass. -/
theorem idealWrapIsModuloTwoPi : Obligations.IdealWrapIsModuloTwoPi := by
  refine ⟨fun p hp => ideal_wrap_of_nonneg hp, fun p q => ⟨fun h => ?_, fun h => ⟨_, h⟩⟩⟩
  obtain ⟨q', hq'⟩ := exists_ideal_wrapLoop_wrapPasses p
  have hwrap := wrap_eq_some_iff_wrapsTo.2 h
  rw [wrap_eq_some_iff_wrapsTo.2 ⟨_, hq'⟩, Option.some.injEq] at hwrap
  rw [hq', hwrap]

/-- Settles O53: one lemma for each property. -/
theorem idealHasTheNamedProperties : Obligations.IdealHasTheNamedProperties :=
  ⟨ideal_numZero, ideal_mulZeroLeft, ideal_numTrig, ideal_numRange, ideal_numWrap⟩

/-- Settles O49: each record keeps silence, `IDEAL` by NUM-ZERO and binary64 by correct rounding. -/
theorem silenceIsDetectedAsZero : Obligations.SilenceIsDetectedAsZero := by
  refine ⟨fun n rate f hn => ?_, fun R N val n rate f hz hl hn hs hc hco hhalf => ?_, fun t n rate f hn hs hc hco => ?_⟩
  · have hhalf : idealVal (ideal.div (ideal.ofInt n) (ideal.ofInt 2)) ≠ some 0 := by
      rw [ne_eq, idealVal_eq_zero_iff]
      have hn' : (n : ℝ) ≠ 0 := by exact_mod_cast (show n ≠ 0 by omega)
      simpa using hn'
    obtain ⟨m, hm, hval⟩ := exists_detect_silence (rate := rate) (f := f)
      (ideal_numZero.keepsSilence ideal_mulZeroLeft hhalf) hn rfl rfl rfl
    rw [hm, idealVal_eq_zero_iff.1 hval]
  · exact exists_detect_silence (hz.keepsSilence hl hhalf) hn hs hc hco
  · exact exists_detect_silence (F64.keepsSilence t (F64.half_ne_zero hn)) hn (F64.isSome_val.2 hs) (F64.isSome_val.2 hc)
      (F64.isSome_val.2 hco)

/-- Settles O51: the scratch's value keeps the size of the block's Fourier sum. -/
theorem idealDetectorIsTheFourierMagnitude : Obligations.IdealDetectorIsTheFourierMagnitude := by
  intro xs rate f h
  rw [ideal_detect h, norm_fourierSum]

/-- Settles O50: both cases are Fourier sums, of one sample and at the angle 0. -/
theorem idealDetectorCornerCases : Obligations.IdealDetectorCornerCases := by
  refine ⟨fun a rate f => ?_, fun xs rate h => ?_⟩
  · rw [ideal_detect (List.cons_ne_nil a []), fourierSum_cons, fourierSum_nil, mul_zero, add_zero, Complex.norm_intCast,
      List.length_singleton, Nat.cast_one, div_div_eq_mul_div, div_one, mul_comm]
  · rw [ideal_detect h, Nat.cast_zero, mul_zero, zero_div, fourierSum_zero, Complex.norm_intCast]

end Sys2Proof.Machine
